-- ==== Sys2Proof/Word.lean ====
section
/-! DEFINITION. The plain words of the block: bytes, 64-bit registers, 128-bit blocks, round-key schedules. -/

namespace Sys2Proof

/-- A byte: 8 bits (R9). -/
abbrev Byte := BitVec 8

/-- A 64-bit register value (R13 `u64`, R21). -/
abbrev Word := BitVec 64

/-- A Block: 16 bytes (R100), held as its 128-bit integer, byte `i` being bits `8i+7 : 8i` (R101). -/
abbrev Block := BitVec 128

/-- RKS: the 11 round keys `RK[0..10]` (R13, R30). -/
abbrev RoundKeys := Vector Block 11

end Sys2Proof
end

