-- ==== Sys2Proof/Machine/Bytes.lean ====
section
/-! DEFINITION. Little-endian assembly of integers from bytes and back (R10, R52). -/

namespace Sys2Proof.Machine

/-- R10 `LE(b[0..n))`: the sum of `b[i] * 2^(8*i)`. -/
def le : List Byte → Nat
  | [] => 0
  | b :: bs => b.toNat + 256 * le bs

/-- R10 `bytesLE_n(v)`: byte `i` is `v[8*i+7 : 8*i]`. -/
def bytesLE : Nat → Nat → List Byte
  | 0, _ => []
  | n + 1, v => BitVec.ofNat 8 v :: bytesLE n (v / 256)

/-- The 64-bit register value that bytes stand for (R52). -/
def wordOfBytes (bs : List Byte) : Word := BitVec.ofNat 64 (le bs)

/-- The bytes a 64-bit register value stands for (R52). -/
def bytesOfWord (w : Word) : List Byte := bytesLE 8 w.toNat

end Sys2Proof.Machine
end

