-- ==== Sys2Proof/Syntax.lean ====
section
/-! DEFINITION. The commands, one constructor for each row of spec/opcode_table.json (R80).
Every operand but SZ comes from the operand registers (R76, R79), so only GEN.GETVAL carries a field. -/

namespace Sys2Proof

inductive Instr where
  /-- ENG.KEY (R140). -/
  | engKey
  /-- ENG.ENC (R141). -/
  | engEnc
  /-- ENG.CTR (R142). -/
  | engCtr
  /-- GEN.SEED (R170). -/
  | genSeed
  /-- GEN.GETBYTES (R171). -/
  | genGetbytes
  /-- GEN.GETVAL with its SZ field (R172). -/
  | genGetval (sz : BitVec 3)
  /-- GEN.GETBOOLS (R173). -/
  | genGetbools
  /-- GEN.GETBIT (R174). -/
  | genGetbit
  /-- GEN.VIEW (R175). -/
  | genView
  /-- GEN.GETSEED (R176). -/
  | genGetseed
  /-- GEN.RELEASE (R177). -/
  | genRelease
  deriving DecidableEq, Repr

end Sys2Proof
end

