-- ==== Sys2Proof/WellFormed.lean ====
section
/-! DEFINITION. Which commands have a legal word: SZ of GEN.GETVAL is at most 4 (R77). -/

namespace Sys2Proof

/-- R77: `c[10:8] <= 4` for GEN.GETVAL; every other command has no field to check. -/
def Instr.wellFormed : Instr → Bool
  | .engKey => true
  | .engEnc => true
  | .engCtr => true
  | .genSeed => true
  | .genGetbytes => true
  | .genGetval sz => decide (sz ≤ 4#3)
  | .genGetbools => true
  | .genGetbit => true
  | .genView => true
  | .genGetseed => true
  | .genRelease => true

end Sys2Proof
end

