-- ==== Sys2Proof/Decode.lean ====
section
/-! DEFINITION. The decoder of command words (R76, R77, R80), total on any bytes, and after it the encoder (R86). -/

namespace Sys2Proof

/-- Why a command word, or a run of bytes, is no command (R81). -/
inductive DecodeError where
  /-- Not the 8 bytes of one 64-bit write (R83). -/
  | badLength
  /-- `RSV != 0` (R81). -/
  | reservedBits
  /-- An OP outside R80. -/
  | reservedOp
  /-- `SZ != 0` with `OP != 0x12`, or `SZ` in 5..7 with `OP = 0x12` (R81). -/
  | sizeMisuse
  deriving DecidableEq, Repr

/-- OP, bits 7:0 (R76). -/
def cmdOp (c : Word) : BitVec 8 := c.extractLsb' 0 8

/-- SZ, bits 10:8 (R76). -/
def cmdSz (c : Word) : BitVec 3 := c.extractLsb' 8 3

/-- RSV, bits 63:11 (R76). -/
def cmdRsv (c : Word) : BitVec 53 := c.extractLsb' 11 53

/-- R77: the words that are legal, as the rule writes the set. -/
def legalWord (c : Word) : Bool :=
  decide (cmdRsv c = 0#53) &&
  [0x01#8, 0x02#8, 0x03#8, 0x10#8, 0x11#8, 0x12#8, 0x13#8, 0x14#8, 0x15#8, 0x16#8, 0x17#8].contains (cmdOp c) &&
  ((decide (cmdOp c ≠ 0x12#8) && decide (cmdSz c = 0#3)) || (decide (cmdOp c = 0x12#8) && decide (cmdSz c ≤ 4#3)))

/-- A command that has no SZ: SZ must be 0 (R76). -/
def noSize (sz : BitVec 3) (i : Instr) : Except DecodeError Instr :=
  if sz = 0#3 then .ok i else .error .sizeMisuse

/-- The command of an OP and an SZ (R80), rejecting by name. -/
def decodeFields (op : BitVec 8) (sz : BitVec 3) : Except DecodeError Instr :=
  if op = 0x01#8 then noSize sz .engKey
  else if op = 0x02#8 then noSize sz .engEnc
  else if op = 0x03#8 then noSize sz .engCtr
  else if op = 0x10#8 then noSize sz .genSeed
  else if op = 0x11#8 then noSize sz .genGetbytes
  else if op = 0x12#8 then
    if sz ≤ 4#3 then .ok (.genGetval sz) else .error .sizeMisuse
  else if op = 0x13#8 then noSize sz .genGetbools
  else if op = 0x14#8 then noSize sz .genGetbit
  else if op = 0x15#8 then noSize sz .genView
  else if op = 0x16#8 then noSize sz .genGetseed
  else if op = 0x17#8 then noSize sz .genRelease
  else .error .reservedOp

/-- Decoding of a 64-bit command word (R77), total on all words. -/
def decode (c : Word) : Except DecodeError Instr :=
  if cmdRsv c = 0#53 then decodeFields (cmdOp c) (cmdSz c) else .error .reservedBits

/-- Decoding of bytes as the hardware takes them: one 64-bit little-endian write (R52, R83). -/
def decodeBytes (bs : List Byte) : Except DecodeError Instr :=
  if bs.length = 8 then decode (Machine.wordOfBytes bs) else .error .badLength

/-- The host's question: the instruction of a table row's word, laid out as the hardware stores it. -/
def decodeTableWord (nbits w : Nat) : Option Instr :=
  match decodeBytes (Machine.bytesLE 8 (w % 2 ^ nbits)) with
  | .ok i => some i
  | .error _ => none

/-- The OP of a command (R80). -/
def opOf : Instr → BitVec 8
  | .engKey => 0x01
  | .engEnc => 0x02
  | .engCtr => 0x03
  | .genSeed => 0x10
  | .genGetbytes => 0x11
  | .genGetval _ => 0x12
  | .genGetbools => 0x13
  | .genGetbit => 0x14
  | .genView => 0x15
  | .genGetseed => 0x16
  | .genRelease => 0x17

/-- The SZ of a command: 0 but for GEN.GETVAL (R76). -/
def szOf : Instr → BitVec 3
  | .engKey => 0
  | .engEnc => 0
  | .engCtr => 0
  | .genSeed => 0
  | .genGetbytes => 0
  | .genGetval sz => sz
  | .genGetbools => 0
  | .genGetbit => 0
  | .genView => 0
  | .genGetseed => 0
  | .genRelease => 0

/-- The command word (R76, R86): RSV, SZ, OP. -/
def encode (i : Instr) : Word := 0#53 ++ szOf i ++ opOf i

end Sys2Proof
end

