-- ==== Sys2Proof/Config.lean ====
section
/-! DEFINITION. What one instance of the block fixes (the parameters of R8), and the free values of the spec. -/

namespace Sys2Proof.Machine

/-- A range of host addresses `[base, base + size)`. -/
structure Region where
  base : Nat
  size : Nat
  deriving DecidableEq, Repr

/-- The parameters of R8. They are fixed for one model instance: no step changes them (log 1).
BACKEND is not among them, for no value depends on it (R6, log 20). -/
structure Params where
  /-- `NMAX`: the buffer's capacity in 16-byte blocks. -/
  nmax : Nat
  /-- `ADDR_W`: the width of host addresses in bits. -/
  addrW : Nat
  /-- `BASE`: the host address of register offset 0x000. -/
  base : Nat
  /-- The host ranges the block may not write: the complement of `admits` (log 2). -/
  denied : List Region
  deriving DecidableEq, Repr

/-- The bounds R8 states for the parameters. -/
abbrev Params.wf (p : Params) : Prop :=
  1 ≤ p.nmax ∧ p.nmax ≤ 2 ^ 32 ∧ 1 ≤ p.addrW ∧ p.addrW ≤ 64

/-- The parameters that State.reset carries: DESIGN CHOICE, unsafe (log 1). NMAX = 256 is the spec's smallest
capacity that honours the default seed, ADDR_W = 64 its recommended width; BASE and the denied range are the
platform's to choose, and the block's own decode region (R61) is denied. -/
def Params.default : Params where
  nmax := 256
  addrW := 64
  base := 0x100000000
  denied := [⟨0x100000000, 0x1000 + 16 * 256⟩]

end Sys2Proof.Machine

namespace Sys2Proof

/-- The free 64-bit values: what a host read of a result, view or mirror register, or of STATUS's open fields, returns
while BUSY = 1 (R75, R242). Drawn with State.draws (log 5). -/
opaque Config.freeWord : Nat → Word

/-- The free bytes: what a footprint byte holds after a reset that abandons the command (R231).
Drawn with State.draws (log 7). -/
opaque Config.freeByte : Nat → Byte

/-- The free bytes: what host memory held, address by address, before anything was written to it (log 6). -/
opaque Config.hostByte : Nat → Byte

/-- The free bytes: what a byte of GEN.BUF outside the live range holds, offset by offset (R41, R177, log 8). -/
opaque Config.deadBufByte : Nat → Byte

end Sys2Proof
end

