-- ==== Sys2Proof/Machine/Block.lean ====
section
/-! DEFINITION. The VectorBlock datapath (R100 to R113): pure functions on 128-bit blocks.
Lane and byte indices are `Fin 2` and `Fin 16`, so an index out of range cannot be written down (R112). -/

namespace Sys2Proof.Machine

/-- R107 `extractByte(b, i) = INT(b)[8i+7 : 8i]`. -/
def extractByte (b : Block) (i : Fin 16) : Byte := b.extractLsb' (8 * i.val) 8

/-- R102 `fromBytes`: the block whose byte `i` is `f i`. -/
def blockOfBytes (f : Fin 16 → Byte) : Block :=
  f 15 ++ f 14 ++ f 13 ++ f 12 ++ f 11 ++ f 10 ++ f 9 ++ f 8 ++
  f 7 ++ f 6 ++ f 5 ++ f 4 ++ f 3 ++ f 2 ++ f 1 ++ f 0

/-- R102 `fromBytes` of 16 bytes given as a vector. -/
def fromBytes (v : Vector Byte 16) : Block := blockOfBytes fun i => v[i]

/-- R103 `fromHalves(high, low)`: lane 1 is high, lane 0 is low. -/
def fromHalves (high low : Word) : Block := high ++ low

/-- R104 `fromLow64(low)`, equivalent to `fromHalves(0, low)`. -/
def fromLow64 (low : Word) : Block := fromHalves 0#64 low

/-- R105 `zero()`. -/
def zeroBlock : Block := 0#128

/-- R106 `extractLane64(b, i)`: lane 0 is the low 64 bits, lane 1 the high 64 bits. -/
def extractLane64 (b : Block) (i : Fin 2) : Word := b.extractLsb' (64 * i.val) 64

/-- R108 `xor(a, b)`. -/
def xorBlock (a b : Block) : Block := a ^^^ b

/-- R109 `CtrBlock(c) = fromHalves(c, c)`. -/
def ctrBlock (c : Word) : Block := fromHalves c c

/-- The 16 bytes of a block in index order, as they lie in host memory and in the buffer (R51). -/
def blockBytes (b : Block) : List Byte := bytesLE 16 b.toNat

end Sys2Proof.Machine
end

