-- ==== Sys2Proof/Machine/Aes.lean ====
section
/-! DEFINITION. AES-128: field, round transforms, key schedule, block encryption and counter ranges (R120 to R139).
The tables are the spec's, from FIPS-197 (log 14). -/

namespace Sys2Proof.Machine

/-- R121 `xtime(a)`: multiplication by `x` modulo 0x11B. -/
def xtime (a : Byte) : Byte := (a <<< 1) ^^^ (if a.getLsbD 7 then 0x1B#8 else 0x00#8)

/-- The loop of R122 over `n` bits of `b`, lowest first. -/
def gmulLoop : Nat → Byte → Byte → Byte → Byte
  | 0, _, _, r => r
  | n + 1, a, b, r => gmulLoop n (xtime a) (b >>> 1) (if b.getLsbD 0 then r ^^^ a else r)

/-- R122 `gmul(a, b)`: the field product. -/
def gmul (a b : Byte) : Byte := gmulLoop 8 a b 0x00#8

/-- The S-box table of R123, one row a line: row = high nibble, and in a row column 0 leftmost. -/
def sboxRows : List (BitVec 128) := [
  0x637c777bf26b6fc53001672bfed7ab76,
  0xca82c97dfa5947f0add4a2af9ca472c0,
  0xb7fd9326363ff7cc34a5e5f171d83115,
  0x04c723c31896059a071280e2eb27b275,
  0x09832c1a1b6e5aa0523bd6b329e32f84,
  0x53d100ed20fcb15b6acbbe394a4c58cf,
  0xd0efaafb434d338545f9027f503c9fa8,
  0x51a3408f929d38f5bcb6da2110fff3d2,
  0xcd0c13ec5f974417c4a77e3d645d1973,
  0x60814fdc222a908846eeb814de5e0bdb,
  0xe0323a0a4906245cc2d3ac629195e479,
  0xe7c8376d8dd54ea96c56f4ea657aae08,
  0xba78252e1ca6b4c6e8dd741f4bbd8b8a,
  0x703eb5664803f60e613557b986c11d9e,
  0xe1f8981169d98e949b1e87e9ce5528df,
  0x8ca1890dbfe6426841992d0fb054bb16]

/-- R123 `SBOX(x)`: row = high nibble, column = low nibble. -/
def sbox (x : Byte) : Byte :=
  (sboxRows.getD (x.toNat / 16) 0).extractLsb' (8 * (15 - x.toNat % 16)) 8

/-- R124 `SubBytes(b)`. -/
def subBytes (b : Block) : Block := blockOfBytes fun i => sbox (extractByte b i)

/-- The input byte that output byte `i = r + 4*c` of ShiftRows takes: `r + 4*((c + r) mod 4)` (R125). -/
def shiftRowsSource (i : Fin 16) : Fin 16 :=
  Fin.ofNat 16 (i.val % 4 + 4 * ((i.val / 4 + i.val % 4) % 4))

/-- R125 `ShiftRows(b)`. -/
def shiftRows (b : Block) : Block := blockOfBytes fun i => extractByte b (shiftRowsSource i)

/-- Byte `r` of column `c` of the state, `b[r + 4*c]` (R120), with `r` taken modulo 4. -/
def stateByte (b : Block) (r c : Nat) : Byte := extractByte b (Fin.ofNat 16 (r % 4 + 4 * c))

/-- R126 `MixColumns(b)`: output byte `r` of a column is `2*a[r] ^ 3*a[r+1] ^ a[r+2] ^ a[r+3]`, indices modulo 4. -/
def mixColumns (b : Block) : Block := blockOfBytes fun i =>
  gmul (stateByte b (i.val % 4) (i.val / 4)) 0x02#8 ^^^
  gmul (stateByte b (i.val % 4 + 1) (i.val / 4)) 0x03#8 ^^^
  stateByte b (i.val % 4 + 2) (i.val / 4) ^^^
  stateByte b (i.val % 4 + 3) (i.val / 4)

/-- R127 `AddRoundKey(s, k)`. -/
def addRoundKey (s k : Block) : Block := xorBlock s k

/-- R128 `RCON[r]` for `r = 1..10`. -/
def rcon (r : Nat) : Byte :=
  [0x01#8, 0x02#8, 0x04#8, 0x08#8, 0x10#8, 0x20#8, 0x40#8, 0x80#8, 0x1B#8, 0x36#8].getD (r - 1) 0x00#8

/-- Word `k` (4 bytes) of a block, byte 0 the low byte (R129). -/
def blockWord (b : Block) (k : Fin 4) : BitVec 32 := b.extractLsb' (32 * k.val) 32

/-- R129 `RotWord(w) = w[1], w[2], w[3], w[0]`. -/
def rotWord (w : BitVec 32) : BitVec 32 := w.extractLsb' 0 8 ++ w.extractLsb' 8 24

/-- R129 `SubWord(w)`. -/
def subWord (w : BitVec 32) : BitVec 32 :=
  sbox (w.extractLsb' 24 8) ++ sbox (w.extractLsb' 16 8) ++ sbox (w.extractLsb' 8 8) ++ sbox (w.extractLsb' 0 8)

/-- R130 `KeyExpandStep(p, r)`. -/
def keyExpandStep (p : Block) (r : Nat) : Block :=
  let t := subWord (rotWord (blockWord p 3)) ^^^ (rcon r).setWidth 32
  let n0 := blockWord p 0 ^^^ t
  let n1 := blockWord p 1 ^^^ n0
  let n2 := blockWord p 2 ^^^ n1
  let n3 := blockWord p 3 ^^^ n2
  n3 ++ n2 ++ n1 ++ n0

/-- R131 `KeySchedule(key)`: `RK[0] = key`, `RK[r] = KeyExpandStep(RK[r-1], r)`. -/
def keySchedule (key : Block) : RoundKeys :=
  let k1 := keyExpandStep key 1
  let k2 := keyExpandStep k1 2
  let k3 := keyExpandStep k2 3
  let k4 := keyExpandStep k3 4
  let k5 := keyExpandStep k4 5
  let k6 := keyExpandStep k5 6
  let k7 := keyExpandStep k6 7
  let k8 := keyExpandStep k7 8
  let k9 := keyExpandStep k8 9
  let k10 := keyExpandStep k9 10
  #v[key, k1, k2, k3, k4, k5, k6, k7, k8, k9, k10]

/-- One full round (stages 1..9 of R135). -/
def fullRound (s k : Block) : Block := addRoundKey (mixColumns (shiftRows (subBytes s))) k

/-- The final round, without MixColumns (stage 10 of R135). -/
def finalRound (s k : Block) : Block := addRoundKey (shiftRows (subBytes s)) k

/-- R134 `Encrypt(RK, pt)`. -/
def encrypt (rk : RoundKeys) (pt : Block) : Block :=
  let s0 := addRoundKey pt rk[0]
  let s1 := fullRound s0 rk[1]
  let s2 := fullRound s1 rk[2]
  let s3 := fullRound s2 rk[3]
  let s4 := fullRound s3 rk[4]
  let s5 := fullRound s4 rk[5]
  let s6 := fullRound s5 rk[6]
  let s7 := fullRound s6 rk[7]
  let s8 := fullRound s7 rk[8]
  let s9 := fullRound s8 rk[9]
  finalRound s9 rk[10]

/-- R138 `EncryptCounterRange(RK, base, count)`; the counter of block `i` is `(base + i) mod 2^64` (R137). -/
def encryptCounterRange (rk : RoundKeys) (base : Word) (count : Nat) : List Block :=
  (List.range count).map fun i => encrypt rk (ctrBlock (base + BitVec.ofNat 64 i))

end Sys2Proof.Machine
end

