-- ==== Sys2Proof/Machine/State.lean ====
section
/-! DEFINITION. The state of the machine as plain data (R20), and the state after reset (R41). -/

namespace Sys2Proof.Machine

/-- The model faults of R208: the machine stops. Each stands for behaviour the sources leave undefined (R207).
Safe: nothing can be proved of a run past one. -/
inductive Fault where
  /-- REG_ACCESS, raised by a host access: wrong width or alignment in register space, a reserved offset, a write to a
  read-only register, a read of CMD, a write to the buffer window, a window read of another width (R71, R72, R73, R58).
  Safe. -/
  | regAccess
  /-- BUSY_ACCESS, raised by a host access while BUSY = 1: a write to CMD or an operand register, a window read
  (R74, R78, R58). Safe. -/
  | busyAccess
  /-- DMA_RACE, raised by a host access to the pending command's footprint while BUSY = 1 (R243). Safe. -/
  | dmaRace
  /-- STALE_VIEW, raised by a window read with VIEW_VALID = 0 or outside the view (R58). Safe. -/
  | staleView
  /-- DMA_RANGE, raised by an ENGINE step: a footprint that passes `2^ADDR_W` (R54). Safe. -/
  | dmaRange
  /-- DMA_DENIED, raised by an ENGINE step: a footprint `admits` refuses (R54). Safe. -/
  | dmaDenied
  /-- The model's own: a host access to an address outside host memory, `2^ADDR_W` or above, which R50 says does not
  exist (log 12). Safe. -/
  | hostRange
  deriving DecidableEq, Repr

/-- The refusals. -/
inductive Refusal where
  /-- Raised by an arm of exec that has no meaning yet, with the mnemonic. No arm is left. Safe. -/
  | notModelled (mnemonic : String)
  deriving DecidableEq, Repr

/-- The result codes of R202 in STATUS.ERR. Codes 4..15 are never produced, so they are no values (log 21). -/
inductive ErrCode where
  | ok
  | notSeeded
  | illegal
  | badSize
  deriving DecidableEq, Repr

/-- STATUS's fields (R25). Its reserved bits read 0 and are not stored. -/
structure Status where
  busy : Bool
  seeded : Bool
  viewValid : Bool
  err : ErrCode
  deriving DecidableEq, Repr

/-- The five operand registers (R21). -/
structure OperandRegs where
  argLo : Word
  argHi : Word
  argA : Word
  argB : Word
  addr : Word
  deriving DecidableEq, Repr

/-- PEND: the latched command (R36, R78). -/
structure Pend where
  op : BitVec 8
  sz : BitVec 3
  legal : Bool
  args : OperandRegs
  deriving DecidableEq, Repr

/-- The generator (R32 to R35). `buf` holds the live bytes `[0, 16*N)`; the others are unspecified (log 8). -/
structure Gen where
  rk : RoundKeys
  n : Word
  ctr : Word
  cursor : Word
  buf : List Byte
  deriving DecidableEq, Repr

/-- What happens next at the block's outside (R7, R63, R230): the model's own schedule (log 3). -/
inductive Event where
  /-- The ENGINE has its turn: it steps if BUSY = 1. -/
  | engine
  /-- The HOST reads `width` bytes at a host address. -/
  | read (addr width : Nat)
  /-- The HOST writes bytes at a host address, the first byte at the lowest address. -/
  | write (addr : Nat) (bytes : List Byte)
  /-- The reset input is asserted. -/
  | reset
  deriving DecidableEq, Repr

/-- Host memory: the bytes that have been written, addresses strictly rising. An unlisted byte has no value (log 6). -/
abbrev Memory := List Host.Cell

/-- The canonical form of a memory. -/
abbrev Memory.wf (m : Memory) : Prop := m.Pairwise fun c d => c.1 < d.1

/-- The state (R20), the parameters of R8, host memory (R50), and the model's own three fields. -/
structure State where
  /-- The instance's parameters (R8, log 1). -/
  params : Params
  /-- ARG_LO, ARG_HI, ARG_A, ARG_B, ADDR (R21). -/
  args : OperandRegs
  /-- RES_LO (R23). -/
  resLo : Word
  /-- RES_HI (R23). -/
  resHi : Word
  /-- VIEW_OFF (R24). -/
  viewOff : Word
  /-- VIEW_LEN (R24). -/
  viewLen : Word
  /-- STATUS (R25). -/
  status : Status
  /-- ENG.RK (R30). -/
  engRk : RoundKeys
  /-- GEN.* (R30, R32 to R35). -/
  gen : Gen
  /-- PEND (R36). -/
  pend : Option Pend
  /-- FAULT (R20, R207): a marked state has no step (log 4). -/
  fault : Option Fault
  /-- Host memory (R50). -/
  mem : Memory
  /-- The model's own: what the HOST does next and when the ENGINE moves (log 3). -/
  events : List Event
  /-- The model's own: the bytes the last host read returned (log 16). -/
  hostData : List Byte
  /-- The model's own: the counter that free values are drawn with (log 5). -/
  draws : Nat
  deriving DecidableEq, Repr

/-- The Unseeded generator after reset (R41): `N`, `ctr` and `cursor` 0, the zero-key schedule, no live byte. -/
def Gen.reset : Gen where
  rk := keySchedule zeroBlock
  n := 0#64
  ctr := 0#64
  cursor := 0#64
  buf := []

/-- The reset values of R41 for an instance with parameters `p`, host memory `m`. -/
def State.resetWith (p : Params) (m : Memory) : State where
  params := p
  args := ⟨0#64, 0#64, 0#64, 0#64, 0#64⟩
  resLo := 0#64
  resHi := 0#64
  viewOff := 0#64
  viewLen := 0#64
  status := ⟨false, false, false, .ok⟩
  engRk := keySchedule zeroBlock
  gen := Gen.reset
  pend := none
  fault := none
  mem := m
  events := []
  hostData := []
  draws := 0

/-- The machine right after reset (R41, R232): nothing pending, Unseeded, nothing listed in memory. -/
def State.reset : State := State.resetWith Params.default []

end Sys2Proof.Machine
end

