-- ==== Sys2Proof/Machine/Ops.lean ====
section
/-! DEFINITION. The named operations over host memory and the registers, and `finish`, the one operation that ends a
command. The block has no traps: R200, R211 and R212 give no exception to take and none to return from. -/

namespace Sys2Proof.Machine

/-! ### Host memory -/

/-- The byte at `a`, if one has been written. -/
def Memory.get? : Memory → Nat → Option Byte
  | [], _ => none
  | c :: m, a => if c.1 = a then some c.2 else Memory.get? m a

/-- Memory with byte `b` at `a`, addresses still strictly rising. -/
def Memory.set : Memory → Nat → Byte → Memory
  | [], a, b => [(a, b)]
  | c :: m, a, b =>
    if a < c.1 then (a, b) :: c :: m
    else if a = c.1 then (a, b) :: m
    else c :: Memory.set m a b

/-- Memory with the bytes `bs` at `a`, `a+1`, ... (R51, R54's loop). -/
def Memory.writeBytes : Memory → Nat → List Byte → Memory
  | m, _, [] => m
  | m, a, b :: bs => Memory.writeBytes (Memory.set m a b) (a + 1) bs

/-- What a host load of one byte finds: the byte written, or the free value of what stood there before (log 6). -/
def Memory.byteAt (m : Memory) (a : Nat) : Byte := (Memory.get? m a).getD (Config.hostByte a)

/-- R55 `MemRead(addr, n)`. -/
def Memory.readBytes (m : Memory) (a n : Nat) : List Byte :=
  (List.range n).map fun i => Memory.byteAt m (a + i)

/-! ### The platform's parameters -/

/-- No byte of `[a, a + n)` lies in the region. -/
def regionClear (r : Region) (a n : Nat) : Bool :=
  n == 0 || r.size == 0 || decide (a + n ≤ r.base) || decide (r.base + r.size ≤ a)

/-- R8 `admits(a, n)`: the block may write every byte of `[a, a + n)` (log 2). -/
def Params.admits (p : Params) (a n : Nat) : Bool := p.denied.all fun r => regionClear r a n

/-- R54, R209: the fault, if any, of a DMA footprint `[a, a + n)`: DMA_RANGE before DMA_DENIED, none if it is empty. -/
def Params.dmaFault (p : Params) (a n : Nat) : Option Fault :=
  if n = 0 then none
  else if 2 ^ p.addrW < a + n then some .dmaRange
  else if Params.admits p a n then none
  else some .dmaDenied

/-! ### Registers and the end of a command -/

/-- The bytes of a DMA write land in host memory (R54; the checks stand before it). -/
def State.dmaWrite (s : State) (a : Nat) (bs : List Byte) : State :=
  { s with mem := Memory.writeBytes s.mem a bs }

/-- RES_LO and RES_HI take a result (R23). -/
def State.setRes (s : State) (lo hi : Word) : State := { s with resLo := lo, resHi := hi }

/-- R201 `finish(code)`. -/
def State.finish (s : State) (code : ErrCode) : State :=
  { s with
    status := { s.status with err := code, seeded := decide (s.gen.n ≠ 0#64), busy := false }
    pend := none }

/-- A host read returns bytes (log 16); it has no other effect (R60). -/
def State.deliver (s : State) (bs : List Byte) : State := { s with hostData := bs }

/-- A host read returns bytes made of one free value (R75), and the next draw is another one (log 5). -/
def State.deliverDraw (s : State) (f : Word → Word) : State :=
  { s with hostData := bytesOfWord (f (Config.freeWord s.draws)), draws := s.draws + 1 }

/-- R81: what the ENGINE does with an illegal command word. -/
def State.finishIllegal (s : State) : State := State.finish s .illegal

end Sys2Proof.Machine
end

