-- ==== Sys2Proof/Machine/Operands.lean ====
section
/-! DEFINITION. The operands of a command (R79), its footprint (R53), and the command a pending word stands for (R78). -/

namespace Sys2Proof.Machine

/-- The operands of the command being performed: PEND's snapshot (R36). With nothing pending exec reads the live
registers, which R36 says are equal (log 10). -/
def State.operands (s : State) : OperandRegs :=
  match s.pend with
  | some p => p.args
  | none => s.args

/-- R79 `BLK = fromHalves(PEND.ARG_HI, PEND.ARG_LO)`. -/
def OperandRegs.blk (o : OperandRegs) : Block := fromHalves o.argHi o.argLo

/-- R79 `BLK` of the command being performed. -/
def State.blk (s : State) : Block := OperandRegs.blk (State.operands s)

/-- R79 `A`, an unsigned integer. -/
def State.opA (s : State) : Nat := (State.operands s).argA.toNat

/-- R79 `B`, an unsigned integer. -/
def State.opB (s : State) : Nat := (State.operands s).argB.toNat

/-- R79 `DST`, an unsigned host byte address. -/
def State.dst (s : State) : Nat := (State.operands s).addr.toNat

/-- R79 `W = 2^SZ` bytes. -/
def valueWidth (sz : BitVec 3) : Nat := 2 ^ sz.toNat

/-- The command a latched word stands for; none if it was not legal (R78, R81). -/
def Pend.instr? (p : Pend) : Option Instr :=
  if p.legal then
    match decodeFields p.op p.sz with
    | .ok i => some i
    | .error _ => none
  else none

/-- The start and the length of the host range a command may write (R53); length 0 for every other command. -/
def footprintOf (i : Instr) (o : OperandRegs) : Nat × Nat :=
  match i with
  | .engKey => (o.addr.toNat, 0)
  | .engEnc => (o.addr.toNat, 0)
  | .engCtr => (o.addr.toNat, 16 * o.argB.toNat)
  | .genSeed => (o.addr.toNat, 0)
  | .genGetbytes => (o.addr.toNat, o.argA.toNat)
  | .genGetval _ => (o.addr.toNat, 0)
  | .genGetbools => (o.addr.toNat, o.argA.toNat)
  | .genGetbit => (o.addr.toNat, 0)
  | .genView => (o.addr.toNat, 0)
  | .genGetseed => (o.addr.toNat, 0)
  | .genRelease => (o.addr.toNat, 0)

/-- R53 `FP(PEND)`, empty for an illegal word. -/
def Pend.footprint (p : Pend) : Nat × Nat :=
  match Pend.instr? p with
  | some i => footprintOf i p.args
  | none => (p.args.addr.toNat, 0)

/-- R53 of the state: empty with nothing pending. -/
def State.footprint (s : State) : Nat × Nat :=
  match s.pend with
  | some p => Pend.footprint p
  | none => (0, 0)

/-- The half-open ranges `[a, a+n)` and `[b, b+m)` share a byte. -/
def rangesMeet (a n b m : Nat) : Bool :=
  decide (0 < n) && decide (0 < m) && decide (a < b + m) && decide (b < a + n)

end Sys2Proof.Machine
end

