-- ==== Sys2Proof/Machine/Eng.lean ====
section
/-! DEFINITION. The commands of the standalone engine: ENG.KEY, ENG.ENC, ENG.CTR (R140 to R142). -/

namespace Sys2Proof.Machine

/-- ENG.KEY (R140). -/
def execEngKey (s : State) : Host.Outcome State Fault Refusal :=
  .next (State.finish { s with engRk := keySchedule (State.blk s) } .ok)

/-- ENG.ENC (R141). -/
def execEngEnc (s : State) : Host.Outcome State Fault Refusal :=
  let c := encrypt s.engRk (State.blk s)
  .next (State.finish (State.setRes s (extractLane64 c 0) (extractLane64 c 1)) .ok)

/-- The bytes ENG.CTR writes: block `i` at offset `16*i` (R142, R138). -/
def engCtrBytes (s : State) : List Byte :=
  (encryptCounterRange s.engRk (State.operands s).argA (State.opB s)).flatMap blockBytes

/-- ENG.CTR (R142): the whole footprint is checked before any byte is written (R54). -/
def execEngCtr (s : State) : Host.Outcome State Fault Refusal :=
  match Params.dmaFault s.params (State.dst s) (16 * State.opB s) with
  | some f => .fault f
  | none => .next (State.finish (State.dmaWrite s (State.dst s) (engCtrBytes s)) .ok)

end Sys2Proof.Machine
end

