-- ==== Sys2Proof/Machine/Flags.lean ====
section
/-! DEFINITION. STATUS as a 64-bit word (R25): the block's only flags (R39). -/

namespace Sys2Proof.Machine

/-- The 4-bit code of ERR (R202). -/
def ErrCode.code : ErrCode → BitVec 4
  | .ok => 0
  | .notSeeded => 1
  | .illegal => 2
  | .badSize => 3

/-- STATUS as the host reads it with BUSY = 0 (R25): ERR in 7:4, bit 3 zero, VIEW_VALID, SEEDED, BUSY, bits 63:8 zero. -/
def Status.toWord (t : Status) : Word :=
  0#56 ++ ErrCode.code t.err ++ 0#1 ++ BitVec.ofBool t.viewValid ++ BitVec.ofBool t.seeded ++ BitVec.ofBool t.busy

/-- STATUS as the host reads it with BUSY = 1 (R75, R242): bit 0 is 1, bits 3 and 63:8 are 0, the others are `w`'s. -/
def busyStatusWord (w : Word) : Word := (w &&& 0xF6#64) ||| 0x01#64

/-- VIEW_VALID set by GEN.VIEW (R28), the other fields kept. -/
def Status.withView (t : Status) : Status := { t with viewValid := true }

/-- STATUS after an accepted CMD write (R78): BUSY set, VIEW_VALID cleared, the other fields kept. -/
def Status.issued (t : Status) : Status := { t with busy := true, viewValid := false }

end Sys2Proof.Machine
end

