-- ==== Sys2Proof/Machine/Keystream.lean ====
section
/-! DEFINITION. The generator's internal procedures: the keystream byte function, the refill and the consumption of
bytes (R161 to R165). -/

namespace Sys2Proof.Machine

/-- R161 `KS(RK, j)`. -/
def ksByte (rk : RoundKeys) (j : Nat) : Byte :=
  extractByte (encrypt rk (ctrBlock (BitVec.ofNat 64 (j / 16)))) (Fin.ofNat 16 j)

/-- `16*GEN.N`, the live bytes of the buffer (R35). -/
def Gen.capacity (g : Gen) : Nat := 16 * g.n.toNat

/-- R164: the stream index of buffer byte 0. -/
def Gen.bufBase (g : Gen) : Nat := 16 * (g.ctr - g.n).toNat

/-- R164: the stream position `P`. -/
def Gen.streamPos (g : Gen) : Nat := Gen.bufBase g + g.cursor.toNat

/-- `GEN.BUF[j]`; a byte outside the live range is a free value (R41, R177, log 8). -/
def Gen.byteAt (g : Gen) (j : Nat) : Byte := (g.buf[j]?).getD (Config.deadBufByte j)

/-- `GEN.BUF[off .. off+n)`. -/
def Gen.slice (g : Gen) (off n : Nat) : List Byte := (List.range n).map fun i => Gen.byteAt g (off + i)

/-- R162 `Refill()`: the generator after it and the code it returns. -/
def Gen.refill (g : Gen) : Gen × ErrCode :=
  if g.n = 0#64 then (g, .notSeeded)
  else
    ({ g with
        buf := (encryptCounterRange g.rk g.ctr g.n.toNat).flatMap blockBytes
        ctr := g.ctr + g.n
        cursor := 0#64 }, .ok)

/-- The buffer is exhausted: `cursor = 16*N` (R165, R175). In every state a run reaches `cursor <= 16*N` (R34), so `≤`
says the same as `=` there (log 9). -/
def Gen.exhausted (g : Gen) : Bool := decide (Gen.capacity g ≤ g.cursor.toNat)

/-- `if GEN.cursor = 16*GEN.N: Refill()` (R165, R175). -/
def Gen.refillIfExhausted (g : Gen) : Gen := if Gen.exhausted g then (Gen.refill g).1 else g

/-- The cursor moves on by `n` bytes. -/
def Gen.advance (g : Gen) (n : Nat) : Gen := { g with cursor := BitVec.ofNat 64 (g.cursor.toNat + n) }

/-- The step `min(rem, 16*N - cursor)` of one iteration of R165. -/
def Gen.chunk (g : Gen) (rem : Nat) : Nat := min rem (Gen.capacity g - g.cursor.toNat)

/-- The loop `repeat ... until rem = 0` of R165, at most `fuel` times. -/
def Gen.consumeLoop : Nat → Nat → Gen → List Byte × Gen
  | 0, _, g => ([], g)
  | fuel + 1, rem, g =>
    let step := Gen.chunk g rem
    let out := Gen.slice g g.cursor.toNat step
    let g' := Gen.refillIfExhausted (Gen.advance g step)
    if rem - step = 0 then (out, g')
    else
      let r := Gen.consumeLoop fuel (rem - step) g'
      (out ++ r.1, r.2)

/-- R165 `Consume(L)`. An iteration that copies nothing is followed by one that copies, so `L + 1` iterations are
enough (log 9). -/
def Gen.consume (g : Gen) (len : Nat) : List Byte × Gen := Gen.consumeLoop (len + 1) len g

end Sys2Proof.Machine
end

