-- ==== Sys2Proof/Machine/Gen.lean ====
section
/-! DEFINITION. The commands of the generator (R170 to R177). -/

namespace Sys2Proof.Machine

/-- R163, the NotSeeded gate: Unseeded, the command finishes NOT_SEEDED and nothing else changes. -/
def seededGate (s : State) (ready : Host.Outcome State Fault Refusal) : Host.Outcome State Fault Refusal :=
  if s.gen.n = 0#64 then .next (State.finish s .notSeeded) else ready

/-- The shape of GEN.GETBYTES and GEN.GETBOOLS (R171, R173): the gate, the check of the footprint, `Consume(A)`, and the
bytes, each changed by `f`, to host memory. -/
def getToMemory (s : State) (f : Byte → Byte) : Host.Outcome State Fault Refusal :=
  seededGate s <|
    match Params.dmaFault s.params (State.dst s) (State.opA s) with
    | some k => .fault k
    | none =>
      let r := Gen.consume s.gen (State.opA s)
      .next (State.finish (State.dmaWrite { s with gen := r.2 } (State.dst s) (r.1.map f)) .ok)

/-- A boolean of a keystream byte: its low bit (R173, R174). -/
def boolByte (b : Byte) : Byte := b &&& 0x01#8

/-- GEN.SEED, its second and third lines (R170): the key is replaced and the counter zeroed. -/
def Gen.rekey (g : Gen) (key : Block) : Gen := { g with rk := keySchedule key, ctr := 0#64 }

/-- GEN.SEED's `if GEN.N = 0: GEN.N <- A` (R170, R180). -/
def Gen.sizeIfUnsized (g : Gen) (a : Word) : Gen := if g.n = 0#64 then { g with n := a } else g

/-- GEN.SEED (R170). -/
def execGenSeed (s : State) : Host.Outcome State Fault Refusal :=
  if s.gen.n = 0#64 ∧ s.params.nmax < State.opA s then .next (State.finish s .badSize)
  else
    let g := Gen.sizeIfUnsized (Gen.rekey s.gen (State.blk s)) (State.operands s).argA
    let r := Gen.refill g
    .next (State.finish { s with gen := r.1 } r.2)

/-- GEN.GETBYTES (R171). -/
def execGenGetbytes (s : State) : Host.Outcome State Fault Refusal := getToMemory s id

/-- The result registers of a value (R172): little-endian, unused high bytes zero. -/
def valueLo (v : List Byte) : Word := wordOfBytes (v.take 8)

/-- RES_HI of a value: `LE(v[8..16))` if it has 16 bytes, else 0 (R172). -/
def valueHi (v : List Byte) : Word := wordOfBytes ((v.drop 8).take 8)

/-- GEN.GETVAL (R172). A form that no legal word gives (SZ in 5..7) is what R81 says of its words (log 11). -/
def execGenGetval (sz : BitVec 3) (s : State) : Host.Outcome State Fault Refusal :=
  if 4#3 < sz then .next (State.finishIllegal s)
  else
    seededGate s <|
      let r := Gen.consume s.gen (valueWidth sz)
      .next (State.finish (State.setRes { s with gen := r.2 } (valueLo r.1) (valueHi r.1)) .ok)

/-- GEN.GETBOOLS (R173). -/
def execGenGetbools (s : State) : Host.Outcome State Fault Refusal := getToMemory s boolByte

/-- GEN.GETBIT (R174). -/
def execGenGetbit (s : State) : Host.Outcome State Fault Refusal :=
  seededGate s <|
    let r := Gen.consume s.gen 1
    .next (State.finish (State.setRes { s with gen := r.2 } (valueLo (r.1.map boolByte)) 0#64) .ok)

/-- GEN.VIEW's window on a generator that has refilled if it was exhausted (R175): `min(A, 16*N - cursor)` bytes. -/
def execGenView (s : State) : Host.Outcome State Fault Refusal :=
  seededGate s <|
    let g := Gen.refillIfExhausted s.gen
    let len := Gen.chunk g (State.opA s)
    .next (State.finish
      { s with
        viewOff := g.cursor
        viewLen := BitVec.ofNat 64 len
        status := Status.withView s.status
        gen := Gen.advance g len } .ok)

/-- GEN.GETSEED (R176): the key, `RK[0]`. -/
def execGenGetseed (s : State) : Host.Outcome State Fault Refusal :=
  seededGate s <|
    .next (State.finish (State.setRes s (extractLane64 s.gen.rk[0] 0) (extractLane64 s.gen.rk[0] 1)) .ok)

/-- GEN.RELEASE (R177): Unseeded, the zero-key schedule, and no buffer byte live. -/
def execGenRelease (s : State) : Host.Outcome State Fault Refusal :=
  .next (State.finish
    { s with gen := { rk := keySchedule zeroBlock, n := 0#64, ctr := 0#64, cursor := 0#64, buf := [] } } .ok)

end Sys2Proof.Machine
end

