-- ==== Sys2Proof/Machine/Dispatch.lean ====
section
/-! DEFINITION. exec: one arm for each command, each a call of its meaning. -/

namespace Sys2Proof.Machine

def exec (i : Instr) (s : State) : Host.Outcome State Fault Refusal :=
  match i with
  | .engKey => Sys2Proof.Machine.execEngKey s
  | .engEnc => Sys2Proof.Machine.execEngEnc s
  | .engCtr => Sys2Proof.Machine.execEngCtr s
  | .genSeed => Sys2Proof.Machine.execGenSeed s
  | .genGetbytes => Sys2Proof.Machine.execGenGetbytes s
  | .genGetval sz => Sys2Proof.Machine.execGenGetval sz s
  | .genGetbools => Sys2Proof.Machine.execGenGetbools s
  | .genGetbit => Sys2Proof.Machine.execGenGetbit s
  | .genView => Sys2Proof.Machine.execGenView s
  | .genGetseed => Sys2Proof.Machine.execGenGetseed s
  | .genRelease => Sys2Proof.Machine.execGenRelease s

end Sys2Proof.Machine
end

