-- ==== Sys2Proof/Machine/HostPort.lean ====
section
/-! DEFINITION. What the HOST can do to the block: register accesses, issuing a command, window reads, host-memory
accesses, reset (R50, R58, R70 to R78, R230, R231, R241 to R244). -/

namespace Sys2Proof.Machine

/-! ### The register map -/

/-- The registers of R70. -/
inductive Reg where
  | cmd | status | argLo | argHi | argA | argB | addr | resLo | resHi | viewOff | viewLen | genN | genCtr | genCursor | cap
  deriving DecidableEq, Repr

/-- R70: the offset of a register. -/
def regOffset : Reg → Nat
  | .cmd => 0x000
  | .status => 0x008
  | .argLo => 0x010
  | .argHi => 0x018
  | .argA => 0x020
  | .argB => 0x028
  | .addr => 0x030
  | .resLo => 0x038
  | .resHi => 0x040
  | .viewOff => 0x048
  | .viewLen => 0x050
  | .genN => 0x058
  | .genCtr => 0x060
  | .genCursor => 0x068
  | .cap => 0x070

/-- The registers of R70, in its order. -/
def allRegs : List Reg :=
  [.cmd, .status, .argLo, .argHi, .argA, .argB, .addr, .resLo, .resHi, .viewOff, .viewLen, .genN, .genCtr, .genCursor,
    .cap]

/-- R70: the register at an offset; none at an offset that is no multiple of 8 or is reserved (R71, R72). -/
def regAt (off : Nat) : Option Reg := allRegs.find? fun r => regOffset r == off

/-- The space a host access goes to (R50). -/
inductive Target where
  /-- Register space, at an offset from BASE. -/
  | regs (off : Nat)
  /-- The buffer window, at a window offset. -/
  | window (j : Nat)
  /-- An access that begins below BASE and runs into the block: it touches register space out of alignment (log 12). -/
  | straddle
  /-- Host memory. -/
  | memory
  deriving DecidableEq, Repr

/-- R50, R61: where a host access of `n` bytes at `a` goes. -/
def Params.target (p : Params) (a n : Nat) : Target :=
  if a + n ≤ p.base || p.base + 0x1000 + 16 * p.nmax ≤ a then .memory
  else if a < p.base then .straddle
  else if a < p.base + 0x1000 then .regs (a - p.base)
  else .window (a - p.base - 0x1000)

/-! ### Register reads -/

/-- The value of a readable register with BUSY = 0 (R75, R25, R37); CMD has none. -/
def State.regValue (s : State) : Reg → Option Word
  | .cmd => none
  | .status => some (Status.toWord s.status)
  | .argLo => some s.args.argLo
  | .argHi => some s.args.argHi
  | .argA => some s.args.argA
  | .argB => some s.args.argB
  | .addr => some s.args.addr
  | .resLo => some s.resLo
  | .resHi => some s.resHi
  | .viewOff => some s.viewOff
  | .viewLen => some s.viewLen
  | .genN => some s.gen.n
  | .genCtr => some s.gen.ctr
  | .genCursor => some s.gen.cursor
  | .cap => some (BitVec.ofNat 64 s.params.nmax)

/-- The registers that read as any value while BUSY = 1 (R75). -/
def Reg.openWhileBusy : Reg → Bool
  | .resLo | .resHi | .viewOff | .viewLen | .genN | .genCtr | .genCursor => true
  | .cmd | .status | .argLo | .argHi | .argA | .argB | .addr | .cap => false

/-- R75, R73: a host read of one register. -/
def State.readReg (s : State) (r : Reg) : Host.Outcome State Fault Refusal :=
  match State.regValue s r with
  | none => .fault .regAccess
  | some v =>
    if s.status.busy && Reg.openWhileBusy r then .next (State.deliverDraw s id)
    else if s.status.busy && decide (r = .status) then .next (State.deliverDraw s busyStatusWord)
    else .next (State.deliver s (bytesOfWord v))

/-! ### Register writes and the issue of a command -/

/-- R74: the operand registers with one of them replaced; none for a register that is no operand register. -/
def OperandRegs.put (o : OperandRegs) (v : Word) : Reg → Option OperandRegs
  | .argLo => some { o with argLo := v }
  | .argHi => some { o with argHi := v }
  | .argA => some { o with argA := v }
  | .argB => some { o with argB := v }
  | .addr => some { o with addr := v }
  | .cmd | .status | .resLo | .resHi | .viewOff | .viewLen | .genN | .genCtr | .genCursor | .cap => none

/-- The command that a write of `c` to CMD latches (R78, R36). -/
def State.latch (s : State) (c : Word) : Pend where
  op := cmdOp c
  sz := cmdSz c
  legal := legalWord c
  args := s.args

/-- R78: the effect of an accepted write of `c` to CMD. -/
def State.issue (s : State) (c : Word) : State :=
  { s with pend := some (State.latch s c), status := Status.issued s.status }

/-- R73, R74, R78: a host write of one register. -/
def State.writeReg (s : State) (r : Reg) (v : Word) : Host.Outcome State Fault Refusal :=
  match r, OperandRegs.put s.args v r with
  | .cmd, _ => if s.status.busy then .fault .busyAccess else .next (State.issue s v)
  | _, some o => if s.status.busy then .fault .busyAccess else .next { s with args := o }
  | _, none => .fault .regAccess

/-! ### The buffer window -/

/-- R58: a window read of `w` bytes at window offset `j`. -/
def State.readWindow (s : State) (j w : Nat) : Host.Outcome State Fault Refusal :=
  if !([1, 2, 4, 8].contains w) then .fault .regAccess
  else if s.status.busy then .fault .busyAccess
  else if !s.status.viewValid then .fault .staleView
  else if j < s.viewOff.toNat || s.viewOff.toNat + s.viewLen.toNat < j + w then .fault .staleView
  else .next (State.deliver s (Gen.slice s.gen j w))

/-! ### Host memory -/

/-- What stops a host access of `n` bytes of host memory at `a`: an address that does not exist, or a byte of the pending
command's footprint while BUSY = 1 (R243). DESIGN CHOICE, safe (log 12): the access is judged by where it ends, so one of
no byte at an address strictly above `2^ADDR_W` also faults HOST_RANGE, though it touches no byte; at `2^ADDR_W` or below
it does nothing. -/
def State.memFault (s : State) (a n : Nat) : Option Fault :=
  if 2 ^ s.params.addrW < a + n then some .hostRange
  else if s.status.busy && rangesMeet a n (State.footprint s).1 (State.footprint s).2 then some .dmaRace
  else none

/-! ### One host access -/

/-- A host read of `n` bytes at host address `a` (R50, R58, R71 to R75, R243). -/
def State.hostRead (s : State) (a n : Nat) : Host.Outcome State Fault Refusal :=
  match Params.target s.params a n with
  | .straddle => .fault .regAccess
  | .regs off =>
    match regAt off with
    | none => .fault .regAccess
    | some r => if n = 8 then State.readReg s r else .fault .regAccess
  | .window j => State.readWindow s j n
  | .memory =>
    match State.memFault s a n with
    | some f => .fault f
    | none => .next (State.deliver s (Memory.readBytes s.mem a n))

/-- A host write of the bytes `bs` at host address `a` (R50, R58, R71 to R74, R78, R243). -/
def State.hostWrite (s : State) (a : Nat) (bs : List Byte) : Host.Outcome State Fault Refusal :=
  match Params.target s.params a bs.length with
  | .straddle => .fault .regAccess
  | .regs off =>
    match regAt off with
    | none => .fault .regAccess
    | some r => if bs.length = 8 then State.writeReg s r (wordOfBytes bs) else .fault .regAccess
  | .window _ => .fault .regAccess
  | .memory =>
    match State.memFault s a bs.length with
    | some f => .fault f
    | none => .next { s with mem := Memory.writeBytes s.mem a bs }

/-! ### Reset -/

/-- The bytes of the pending footprint that exist: those below `2^ADDR_W` (R231, log 7). -/
def State.abandonedLength (s : State) : Nat :=
  min (State.footprint s).2 (2 ^ s.params.addrW - (State.footprint s).1)

/-- R231: each byte of an abandoned command's footprint holds any value, drawn by itself. -/
def State.abandon (s : State) : Memory :=
  Memory.writeBytes s.mem (State.footprint s).1
    ((List.range (State.abandonedLength s)).map fun i => Config.freeByte (s.draws + i))

/-- R230, R231: the reset input is asserted. The instance's parameters, the fault mark, and the host's side stay. -/
def State.resetPulse (s : State) : State :=
  { State.resetWith s.params (State.abandon s) with
    fault := s.fault
    events := s.events
    hostData := s.hostData
    draws := s.draws + State.abandonedLength s }

end Sys2Proof.Machine
end

