-- ==== Sys2Proof/Machine/Step.lean ====
section
/-! DEFINITION. One step of the machine: the agent that State.events says moves next (R7, R63, R240, log 3). -/

namespace Sys2Proof.Machine

/-- R240: the ENGINE's turn. With BUSY = 1 it performs the pending command, or R81 if its word was not legal; with
BUSY = 0 it has no step and nothing happens (R41, R218). -/
def engineTurn (s : State) : Host.Outcome State Fault Refusal :=
  if s.status.busy then
    match s.pend with
    | none => .next s
    | some p =>
      match Pend.instr? p with
      | some i => exec i s
      | none => .next (State.finishIllegal s)
  else .next s

/-- One event. -/
def performEvent (e : Event) (s : State) : Host.Outcome State Fault Refusal :=
  match e with
  | .engine => engineTurn s
  | .read a n => State.hostRead s a n
  | .write a bs => State.hostWrite s a bs
  | .reset => .next (State.resetPulse s)

/-- One step. A marked state has none (R207). With no event left the ENGINE has its turn (R247). -/
def step (s : State) : Host.Outcome State Fault Refusal :=
  match s.fault with
  | some f => .fault f
  | none =>
    match s.events with
    | [] => engineTurn s
    | e :: es => performEvent e { s with events := es }

/-- `s` with the command word `w` issued as R78 issues it, so that the very next step is the ENGINE's and performs it.
The block fetches nothing (R22): this stands for the host's accepted write of the word to CMD (log 24). -/
def State.withFetchWord (s : State) (nbits w : Nat) : State :=
  { State.issue s (wordOfBytes (bytesLE 8 (w % 2 ^ nbits))) with events := [], fault := none }

end Sys2Proof.Machine
end

