-- ==== Sys2Proof/Machine/Script.lean ====
section
/-! DEFINITION. The host-side assembler of R84 and the pseudo-instructions of R85, as lists of events.
The host's own registers and branches are outside the block (R22, R84): `wait` is given by how often it reads STATUS. -/

namespace Sys2Proof.Machine

/-- `wr NAME, imm` (R84). -/
def Params.wr (p : Params) (r : Reg) (v : Word) : Event := .write (p.base + regOffset r) (bytesOfWord v)

/-- `rd xK, NAME` (R84). -/
def Params.rd (p : Params) (r : Reg) : Event := .read (p.base + regOffset r) 8

/-- `rdbuf.W xK, j` (R84). -/
def Params.rdbuf (p : Params) (w j : Nat) : Event := .read (p.base + 0x1000 + j) w

/-- `cmd MNEMONIC` (R84, R86). -/
def Params.issueCmd (p : Params) (i : Instr) : Event := Params.wr p .cmd (encode i)

/-- `wait` (R85): STATUS is read `k` times before the ENGINE moves, and once after. -/
def Params.wait (p : Params) (k : Nat) : List Event :=
  List.replicate k (Params.rd p .status) ++ [.engine, Params.rd p .status]

/-- The registers written, the command, and the wait: the shape of every expansion of R85. -/
def Params.call (p : Params) (k : Nat) (i : Instr) (writes : List (Reg × Word)) : List Event :=
  (writes.map fun rv => Params.wr p rv.1 rv.2) ++ [Params.issueCmd p i] ++ Params.wait p k

/-- `eng.key lo, hi` (R85). -/
def Params.engKey (p : Params) (k : Nat) (lo hi : Word) : List Event :=
  Params.call p k .engKey [(.argLo, lo), (.argHi, hi)]

/-- `eng.enc lo, hi` (R85). -/
def Params.engEnc (p : Params) (k : Nat) (lo hi : Word) : List Event :=
  Params.call p k .engEnc [(.argLo, lo), (.argHi, hi)]

/-- `eng.ctr dst, base, count` (R85). -/
def Params.engCtr (p : Params) (k : Nat) (dst base count : Word) : List Event :=
  Params.call p k .engCtr [(.addr, dst), (.argA, base), (.argB, count)]

/-- `gen.seed lo, hi, n` (R85). -/
def Params.genSeed (p : Params) (k : Nat) (lo hi n : Word) : List Event :=
  Params.call p k .genSeed [(.argLo, lo), (.argHi, hi), (.argA, n)]

/-- `gen.seed lo, hi`: the source's default of 256 blocks (R85). -/
def Params.genSeedDefault (p : Params) (k : Nat) (lo hi : Word) : List Event := Params.genSeed p k lo hi 256#64

/-- `gen.getbytes dst, len` (R85). -/
def Params.genGetbytes (p : Params) (k : Nat) (dst len : Word) : List Event :=
  Params.call p k .genGetbytes [(.addr, dst), (.argA, len)]

/-- `gen.get.W dst, count` for a non-boolean element of `w` bytes (R85): GEN.GETBYTES of `w * count` bytes.
DESIGN CHOICE (log 25): the length is a 64-bit word, so a product of `2^64` or more wraps modulo `2^64`. -/
def Params.genGetArray (p : Params) (k : Nat) (w : Word) (dst count : Word) : List Event :=
  Params.genGetbytes p k dst (w * count)

/-- `gen.get.bool dst, count` (R85). -/
def Params.genGetBoolArray (p : Params) (k : Nat) (dst count : Word) : List Event :=
  Params.call p k .genGetbools [(.addr, dst), (.argA, count)]

/-- `gen.get.W` of one value, `W = 2^SZ` (R85). -/
def Params.genGetValue (p : Params) (k : Nat) (sz : BitVec 3) : List Event := Params.call p k (.genGetval sz) []

/-- `gen.get.W` of one value of another width: GEN.GETBYTES to a destination the host chooses (R85). -/
def Params.genGetValueAt (p : Params) (k : Nat) (dst w : Word) : List Event := Params.genGetbytes p k dst w

/-- `gen.get.bool` and `gen.getbit` (R85). -/
def Params.genGetBit (p : Params) (k : Nat) : List Event := Params.call p k .genGetbit []

/-- `gen.view max` (R85). -/
def Params.genView (p : Params) (k : Nat) (max : Word) : List Event := Params.call p k .genView [(.argA, max)]

/-- `gen.getseed` (R85). -/
def Params.genGetSeed (p : Params) (k : Nat) : List Event := Params.call p k .genGetseed []

/-- `gen.release` (R85). -/
def Params.genRelease (p : Params) (k : Nat) : List Event := Params.call p k .genRelease []

end Sys2Proof.Machine
end

