-- ==== Sys2Proof/Safety.lean ====
section
/-! DEFINITION. What holds of every state a run reaches (R27, R31, R36, R38), and what a safe run is. -/

namespace Sys2Proof.Machine

/-- R31, R131: a key context is the whole schedule of its first key. -/
abbrev scheduled (rk : RoundKeys) : Prop := rk = keySchedule rk[0]

/-- R38 points 1 to 3 and R31 for GEN, with `NMAX = nmax`. The last clause is point 3 and says also which bytes are
live: exactly `16*N` (R35). -/
abbrev Gen.inv (nmax : Nat) (g : Gen) : Prop :=
  g.n.toNat ≤ nmax ∧
  (g.n = 0#64 → g.ctr = 0#64 ∧ g.cursor = 0#64) ∧
  g.cursor.toNat ≤ Gen.capacity g ∧
  scheduled g.rk ∧
  g.buf = (List.range (Gen.capacity g)).map fun j => ksByte g.rk (Gen.bufBase g + j)

/-- R36: what PEND holds agrees with the live operand registers, and a legal bit of 1 comes only with an OP and an SZ that
decode. Of a legal bit of 0 it says nothing: OP and SZ may decode and the word be illegal for its RSV (R81). -/
abbrev Pend.inv (args : OperandRegs) (p : Pend) : Prop :=
  p.args = args ∧ (Pend.instr? p).isSome = p.legal

/-- Host memory is in its canonical form and lists only addresses that exist (R50). -/
abbrev Memory.inv (addrW : Nat) (m : Memory) : Prop := Memory.wf m ∧ ∀ c ∈ m, c.1 < 2 ^ addrW

/-- R28, R175: a valid view ends at the cursor, belongs to a Ready generator, and outlives no command. -/
abbrev State.viewInv (s : State) : Prop :=
  s.status.viewValid = true →
    s.pend = none ∧ s.gen.n ≠ 0#64 ∧ s.viewOff.toNat + s.viewLen.toNat = s.gen.cursor.toNat

/-- The invariant of the machine: the parameters' bounds (R8), R38 and R31 for both key contexts, BUSY and SEEDED as R26,
R27 and R36 tie them to PEND and GEN.N, the view, and memory's form. -/
abbrev State.inv (s : State) : Prop :=
  Params.wf s.params ∧
  Gen.inv s.params.nmax s.gen ∧
  scheduled s.engRk ∧
  s.status.busy = s.pend.isSome ∧
  (∀ p ∈ s.pend, Pend.inv s.args p) ∧
  s.status.seeded = decide (s.gen.n ≠ 0#64) ∧
  State.viewInv s ∧
  Memory.inv s.params.addrW s.mem

/-- A run of `k` steps meets no fault and no refusal. -/
def SafeFor (k : Nat) (s : State) : Prop := ∃ t : State, Host.Core.run Sys2Proof.core k s = .next t

end Sys2Proof.Machine
end

