-- ==== Sys2Proof/Certificates/Slice0/Obligations.lean ====
section
/-! DEFINITION. The statements for the provers, each from the spec's rules. A statement that rests on a choice of the
model says so in its docstring and names the log entry. -/

open Sys2Proof Sys2Proof.Machine

namespace Sys2Proof.Claims

/-- STATUS when a command has ended with `code` on a generator `g` (R201): the fields it does not write are `t`'s. -/
def endedStatus (t : Status) (g : Gen) (code : ErrCode) : Status :=
  ⟨false, decide (g.n ≠ 0#64), t.viewValid, code⟩

/-- `n` keystream bytes from stream index `j` on (R161). -/
def keystream (rk : RoundKeys) (j n : Nat) : List Byte := (List.range n).map fun i => ksByte rk (j + i)

/-- The outcome of R163's gate: NOT_SEEDED and nothing else. -/
def gateStops (s : State) : Host.Outcome State Fault Refusal :=
  .next { s with status := endedStatus s.status s.gen .notSeeded, pend := none }

/-- The commands of the generator. -/
def isGen : Instr → Bool
  | .engKey | .engEnc | .engCtr => false
  | .genSeed | .genGetbytes | .genGetval _ | .genGetbools | .genGetbit | .genView | .genGetseed | .genRelease => true

/-- The outcome with its next state, if it has one, changed by `f`. -/
def mapNext (f : State → State) : Host.Outcome State Fault Refusal → Host.Outcome State Fault Refusal
  | .next t => .next (f t)
  | .fault k => .fault k
  | .refused r => .refused r

/-- Address `x` lies in the half-open range of a footprint (R53). -/
def inRange (fp : Nat × Nat) (x : Nat) : Prop := fp.1 ≤ x ∧ x < fp.1 + fp.2

end Sys2Proof.Claims

open Sys2Proof.Claims

/-! ### Encoding -/

/-- R77: the decoder accepts exactly the words of the rule's set, and PEND's `legal` is the same set. -/
def Obligations.DecodeAcceptsExactlyTheLegalWords : Prop :=
  ∀ c : Word,
    ((∃ i, decode c = .ok i) ↔
      (c.extractLsb' 11 53 = 0#53 ∧
        c.extractLsb' 0 8 ∈
          [0x01#8, 0x02#8, 0x03#8, 0x10#8, 0x11#8, 0x12#8, 0x13#8, 0x14#8, 0x15#8, 0x16#8, 0x17#8] ∧
        ((c.extractLsb' 0 8 ≠ 0x12#8 ∧ c.extractLsb' 8 3 = 0#3) ∨
          (c.extractLsb' 0 8 = 0x12#8 ∧ c.extractLsb' 8 3 ≤ 4#3)))) ∧
    (legalWord c = true ↔ ∃ i, decode c = .ok i)

/-- Decoding and encoding are inverse on all words and all well-formed commands: no bit is dropped, no word is shared. -/
def Obligations.DecodeAndEncodeAreInverse : Prop :=
  ∀ (i : Instr) (c : Word), decode c = .ok i ↔ (i.wellFormed = true ∧ encode i = c)

/-- The words of R86 decode to their commands. -/
def Obligations.CommandWordsOfTheTableDecode : Prop :=
  decode 0x0000000000000001#64 = .ok .engKey ∧
  decode 0x0000000000000002#64 = .ok .engEnc ∧
  decode 0x0000000000000003#64 = .ok .engCtr ∧
  decode 0x0000000000000010#64 = .ok .genSeed ∧
  decode 0x0000000000000011#64 = .ok .genGetbytes ∧
  decode 0x0000000000000012#64 = .ok (.genGetval 0) ∧
  decode 0x0000000000000112#64 = .ok (.genGetval 1) ∧
  decode 0x0000000000000212#64 = .ok (.genGetval 2) ∧
  decode 0x0000000000000312#64 = .ok (.genGetval 3) ∧
  decode 0x0000000000000412#64 = .ok (.genGetval 4) ∧
  decode 0x0000000000000013#64 = .ok .genGetbools ∧
  decode 0x0000000000000014#64 = .ok .genGetbit ∧
  decode 0x0000000000000015#64 = .ok .genView ∧
  decode 0x0000000000000016#64 = .ok .genGetseed ∧
  decode 0x0000000000000017#64 = .ok .genRelease

/-! ### Issue and step -/

/-- R78: what a host write of a word to CMD does, with BUSY = 0 and with BUSY = 1. -/
def Obligations.CmdWriteLatchesTheCommand : Prop :=
  ∀ (s : State) (c : Word),
    (s.status.busy = false →
      State.hostWrite s s.params.base (bytesOfWord c) =
        .next { s with
          pend := some ⟨c.extractLsb' 0 8, c.extractLsb' 8 3, legalWord c, s.args⟩
          status := { s.status with viewValid := false, busy := true } }) ∧
    (s.status.busy = true → State.hostWrite s s.params.base (bytesOfWord c) = .fault .busyAccess)

/-- With a word pending that decodes, the ENGINE's step is exec of the command it decodes to: with no event left on the
state itself, with an ENGINE event first on the state without that event. The word placed by withFetchWord runs at once. A step
whose first event is a host read or write is that access, on the state without the event. The ENGINE's step on a word that
is not legal finishes ILLEGAL (R81), and with BUSY = 0 it changes nothing. How events choose the agent is the model's
schedule (log 3). -/
def Obligations.StepPerformsTheDecodedCommand : Prop :=
  (∀ (s : State) (c : Word) (i : Instr) (a : OperandRegs),
    s.fault = none → s.status.busy = true → s.pend = some ⟨cmdOp c, cmdSz c, legalWord c, a⟩ → decode c = .ok i →
      (s.events = [] → step s = exec i s) ∧
      (∀ es, s.events = .engine :: es → step s = exec i { s with events := es })) ∧
  (∀ (s : State) (nbits w : Nat) (i : Instr), decodeTableWord nbits w = some i →
    step (State.withFetchWord s nbits w) = exec i (State.withFetchWord s nbits w)) ∧
  (∀ (s : State) (a n : Nat) (es : List Event), s.fault = none → s.events = .read a n :: es →
    step s = State.hostRead { s with events := es } a n) ∧
  (∀ (s : State) (a : Nat) (bs : List Byte) (es : List Event), s.fault = none → s.events = .write a bs :: es →
    step s = State.hostWrite { s with events := es } a bs) ∧
  (∀ (s : State) (p : Pend),
    s.fault = none → s.status.busy = true → s.pend = some p → p.legal = false →
      (s.events = [] → step s = .next { s with pend := none, status := endedStatus s.status s.gen .illegal }) ∧
      (∀ es, s.events = .engine :: es →
        step s = .next { s with events := es, pend := none, status := endedStatus s.status s.gen .illegal })) ∧
  (∀ s : State, s.fault = none → s.status.busy = false →
    (s.events = [] → step s = .next s) ∧
    (∀ es, s.events = .engine :: es → step s = .next { s with events := es }))

/-- R81: the words it lists are not legal, and the ENGINE's turn on a command that is not legal changes STATUS alone. -/
def Obligations.IllegalWordFinishesIllegalAlone : Prop :=
  (∀ c : Word,
    (cmdOp c = 0x00#8 ∨ (0x04#8 ≤ cmdOp c ∧ cmdOp c ≤ 0x0F#8) ∨ (0x18#8 ≤ cmdOp c ∧ cmdOp c ≤ 0x1F#8) ∨
      0x20#8 ≤ cmdOp c ∨ cmdRsv c ≠ 0#53 ∨ (cmdSz c ≠ 0#3 ∧ cmdOp c ≠ 0x12#8) ∨
      (5#3 ≤ cmdSz c ∧ cmdOp c = 0x12#8)) → legalWord c = false) ∧
  (∀ (s : State) (p : Pend), s.status.busy = true → s.pend = some p → p.legal = false →
    engineTurn s = .next { s with pend := none, status := endedStatus s.status s.gen .illegal })

/-- R201: `finish(code)`. -/
def Obligations.FinishReportsTheCodeAndClearsBusy : Prop :=
  ∀ (s : State) (code : ErrCode),
    State.finish s code =
      { s with
        status := { s.status with err := code, seeded := decide (s.gen.n ≠ 0#64), busy := false }
        pend := none }

/-! ### Host accesses -/

/-- R74: a host write of an operand register. -/
def Obligations.OperandRegisterWriteStoresTheValue : Prop :=
  ∀ (s : State) (v : Word),
    (s.status.busy = false →
      State.hostWrite s (s.params.base + 0x010) (bytesOfWord v) = .next { s with args := { s.args with argLo := v } } ∧
      State.hostWrite s (s.params.base + 0x018) (bytesOfWord v) = .next { s with args := { s.args with argHi := v } } ∧
      State.hostWrite s (s.params.base + 0x020) (bytesOfWord v) = .next { s with args := { s.args with argA := v } } ∧
      State.hostWrite s (s.params.base + 0x028) (bytesOfWord v) = .next { s with args := { s.args with argB := v } } ∧
      State.hostWrite s (s.params.base + 0x030) (bytesOfWord v) = .next { s with args := { s.args with addr := v } }) ∧
    (s.status.busy = true →
      ∀ off ∈ [0x010, 0x018, 0x020, 0x028, 0x030],
        State.hostWrite s (s.params.base + off) (bytesOfWord v) = .fault .busyAccess)

/-- R70, R75, R60: with BUSY = 0 a host read of a readable register returns its value and changes nothing. -/
def Obligations.RegisterReadReturnsTheValue : Prop :=
  ∀ s : State, s.status.busy = false →
    ∀ q ∈ [(0x008, Status.toWord s.status), (0x010, s.args.argLo), (0x018, s.args.argHi), (0x020, s.args.argA),
        (0x028, s.args.argB), (0x030, s.args.addr), (0x038, s.resLo), (0x040, s.resHi), (0x048, s.viewOff),
        (0x050, s.viewLen), (0x058, s.gen.n), (0x060, s.gen.ctr), (0x068, s.gen.cursor),
        (0x070, BitVec.ofNat 64 s.params.nmax)],
      State.hostRead s (s.params.base + q.1) 8 = .next { s with hostData := bytesOfWord q.2 }

/-- R75, R242: what a register read returns with BUSY = 1. `w` is a free value: nothing is known of it. -/
def Obligations.RegisterReadWhileBusy : Prop :=
  ∀ s : State, s.status.busy = true →
    (∀ q ∈ [(0x010, s.args.argLo), (0x018, s.args.argHi), (0x020, s.args.argA), (0x028, s.args.argB),
        (0x030, s.args.addr), (0x070, BitVec.ofNat 64 s.params.nmax)],
      State.hostRead s (s.params.base + q.1) 8 = .next { s with hostData := bytesOfWord q.2 }) ∧
    (∃ w : Word, w.getLsbD 0 = true ∧ w.getLsbD 3 = false ∧ w.extractLsb' 8 56 = 0#56 ∧
      State.hostRead s (s.params.base + 0x008) 8 = .next { s with hostData := bytesOfWord w, draws := s.draws + 1 }) ∧
    (∀ off ∈ [0x038, 0x040, 0x048, 0x050, 0x058, 0x060, 0x068], ∃ w : Word,
      State.hostRead s (s.params.base + off) 8 = .next { s with hostData := bytesOfWord w, draws := s.draws + 1 })

/-- R71, R72, R73: the register accesses that fault. That a wrong width or alignment faults REG_ACCESS also with BUSY = 1,
where R74, R78 and R241 give a write BUSY_ACCESS, is the model's order of the checks (log 13). -/
def Obligations.BadRegisterAccessFaults : Prop :=
  ∀ (s : State) (off : Nat), off < 0x1000 →
    (∀ n, 0 < n → (n ≠ 8 ∨ off % 8 ≠ 0) → State.hostRead s (s.params.base + off) n = .fault .regAccess) ∧
    (∀ bs : List Byte, 0 < bs.length → (bs.length ≠ 8 ∨ off % 8 ≠ 0) →
      State.hostWrite s (s.params.base + off) bs = .fault .regAccess) ∧
    (0x078 ≤ off →
      (∀ n, 0 < n → State.hostRead s (s.params.base + off) n = .fault .regAccess) ∧
      (∀ bs : List Byte, 0 < bs.length → State.hostWrite s (s.params.base + off) bs = .fault .regAccess)) ∧
    (off ∈ [0x008, 0x038, 0x040, 0x048, 0x050, 0x058, 0x060, 0x068, 0x070] →
      ∀ v : Word, State.hostWrite s (s.params.base + off) (bytesOfWord v) = .fault .regAccess) ∧
    (off = 0x000 → State.hostRead s (s.params.base + off) 8 = .fault .regAccess)

/-- R58: a window read, in the order of its checks, and a window write. The bytes of the buffer that it returns are the
live ones; a byte that is not live is a free value (log 8). -/
def Obligations.WindowReadFollowsTheView : Prop :=
  ∀ (s : State) (j w : Nat), j < 16 * s.params.nmax → 0 < w →
    (w ∉ [1, 2, 4, 8] → State.hostRead s (s.params.base + 0x1000 + j) w = .fault .regAccess) ∧
    (w ∈ [1, 2, 4, 8] → s.status.busy = true →
      State.hostRead s (s.params.base + 0x1000 + j) w = .fault .busyAccess) ∧
    (w ∈ [1, 2, 4, 8] → s.status.busy = false →
      (s.status.viewValid = false ∨ j < s.viewOff.toNat ∨ s.viewOff.toNat + s.viewLen.toNat < j + w) →
      State.hostRead s (s.params.base + 0x1000 + j) w = .fault .staleView) ∧
    (w ∈ [1, 2, 4, 8] → s.status.busy = false → s.status.viewValid = true → s.viewOff.toNat ≤ j →
      j + w ≤ s.viewOff.toNat + s.viewLen.toNat →
      ∃ bs : List Byte, bs.length = w ∧
        (∀ i b, i < w → s.gen.buf[j + i]? = some b → bs[i]? = some b) ∧
        State.hostRead s (s.params.base + 0x1000 + j) w = .next { s with hostData := bs }) ∧
    (∀ bs : List Byte, bs.length = w → State.hostWrite s (s.params.base + 0x1000 + j) bs = .fault .regAccess)

/-- R243 and R55: host accesses to host memory outside the block's own addresses. An access past `2^ADDR_W` stops first,
which is the model's choice (log 12); a byte nothing has written reads as a free value (log 6). -/
def Obligations.HostMemoryAccessAndItsRace : Prop :=
  ∀ (s : State) (a : Nat) (bs : List Byte),
    (a + bs.length ≤ s.params.base ∨ s.params.base + 0x1000 + 16 * s.params.nmax ≤ a) →
    a + bs.length ≤ 2 ^ s.params.addrW →
    (s.status.busy = true → (∃ x, inRange (a, bs.length) x ∧ inRange (State.footprint s) x) →
      State.hostRead s a bs.length = .fault .dmaRace ∧ State.hostWrite s a bs = .fault .dmaRace) ∧
    ((s.status.busy = false ∨ ∀ x, inRange (a, bs.length) x → ¬ inRange (State.footprint s) x) →
      (∃ rd : List Byte, rd.length = bs.length ∧
        (∀ i b, i < bs.length → Memory.get? s.mem (a + i) = some b → rd[i]? = some b) ∧
        State.hostRead s a bs.length = .next { s with hostData := rd }) ∧
      (∃ t, State.hostWrite s a bs = .next t ∧ t = { s with mem := t.mem } ∧
        ∀ x, Memory.get? t.mem x =
          if a ≤ x ∧ x < a + bs.length then bs[x - a]? else Memory.get? s.mem x))

/-- R53: the footprint of a pending command. -/
def Obligations.FootprintOfThePendingCommand : Prop :=
  ∀ (s : State) (c : Word) (a : OperandRegs), s.pend = some ⟨cmdOp c, cmdSz c, legalWord c, a⟩ →
    (c = 0x03#64 → State.footprint s = (a.addr.toNat, 16 * a.argB.toNat)) ∧
    (c = 0x11#64 ∨ c = 0x13#64 → State.footprint s = (a.addr.toNat, a.argA.toNat)) ∧
    (c ≠ 0x03#64 → c ≠ 0x11#64 → c ≠ 0x13#64 → (State.footprint s).2 = 0)

/-- R8 as the model carries it (log 2): the block may write a range when no denied region holds a byte of it. -/
def Obligations.AdmitsIsBytewise : Prop :=
  ∀ (p : Params) (a n : Nat),
    Params.admits p a n = true ↔
      ∀ x, a ≤ x → x < a + n → ∀ r ∈ p.denied, ¬ (r.base ≤ x ∧ x < r.base + r.size)

/-- R25: STATUS bit by bit. -/
def Obligations.StatusWordBits : Prop :=
  ∀ t : Status,
    (Status.toWord t).getLsbD 0 = t.busy ∧ (Status.toWord t).getLsbD 1 = t.seeded ∧
    (Status.toWord t).getLsbD 2 = t.viewValid ∧ (Status.toWord t).getLsbD 3 = false ∧
    (Status.toWord t).extractLsb' 4 4 = (match t.err with
      | .ok => 0#4
      | .notSeeded => 1#4
      | .illegal => 2#4
      | .badSize => 3#4) ∧
    (Status.toWord t).extractLsb' 8 56 = 0#56

/-! ### Reset -/

/-- R232: the mode after reset. -/
def Obligations.ResetLeavesTheInitialMode : Prop :=
  State.reset.gen.n = 0#64 ∧ State.reset.status.seeded = false ∧ State.reset.status.busy = false ∧
  State.reset.pend = none ∧ State.reset.status.viewValid = false ∧ State.reset.status.err = .ok ∧
  State.reset.engRk = keySchedule zeroBlock ∧ State.reset.gen.rk = keySchedule zeroBlock

/-- R230, R231: a reset puts every register of R41 to its value, and abandons a pending command; it touches only the
bytes of its footprint, each of which holds a free value of its own. That only addresses below `2^ADDR_W` exist to be
touched is the model's reading (log 7). -/
def Obligations.ResetAbandonsThePendingCommand : Prop :=
  ∀ (s : State) (es : List Event), s.fault = none → s.events = .reset :: es →
    ∃ t, step s = .next t ∧
      t.args = ⟨0#64, 0#64, 0#64, 0#64, 0#64⟩ ∧ t.resLo = 0#64 ∧ t.resHi = 0#64 ∧ t.viewOff = 0#64 ∧
      t.viewLen = 0#64 ∧ t.status = ⟨false, false, false, .ok⟩ ∧ t.engRk = keySchedule zeroBlock ∧
      t.gen.rk = keySchedule zeroBlock ∧ t.gen.n = 0#64 ∧ t.gen.ctr = 0#64 ∧ t.gen.cursor = 0#64 ∧
      t.pend = none ∧ t.fault = none ∧ t.params = s.params ∧ t.events = es ∧ t.hostData = s.hostData ∧
      (∀ x, ¬ inRange (State.footprint s) x → Memory.get? t.mem x = Memory.get? s.mem x) ∧
      (∀ i, i < (State.footprint s).2 → (State.footprint s).1 + i < 2 ^ s.params.addrW →
        Memory.get? t.mem ((State.footprint s).1 + i) = some (Config.freeByte (s.draws + i)))

/-! ### The datapath -/

/-- R103, R106, R109: lanes and halves. -/
def Obligations.LanesOfHalves : Prop :=
  ∀ h l : Word,
    extractLane64 (fromHalves h l) 0 = l ∧ extractLane64 (fromHalves h l) 1 = h ∧
    fromHalves h l = blockOfBytes (fun i => if i.val < 8 then l.extractLsb' (8 * i.val) 8
      else h.extractLsb' (8 * (i.val - 8)) 8) ∧
    extractLane64 (ctrBlock l) 0 = l ∧ extractLane64 (ctrBlock l) 1 = l

/-- R124, R125, R126 byte by byte, with R120's layout `s[r][c] = b[r + 4*c]`. -/
def Obligations.RoundTransformsByteByByte : Prop :=
  ∀ b : Block,
    (∀ i, extractByte (subBytes b) i = sbox (extractByte b i)) ∧
    (∀ r c : Fin 4, extractByte (shiftRows b) (Fin.ofNat 16 (r.val + 4 * c.val)) =
      extractByte b (Fin.ofNat 16 (r.val + 4 * ((c.val + r.val) % 4)))) ∧
    (∀ c : Fin 4,
      let a0 := extractByte b (Fin.ofNat 16 (4 * c.val))
      let a1 := extractByte b (Fin.ofNat 16 (4 * c.val + 1))
      let a2 := extractByte b (Fin.ofNat 16 (4 * c.val + 2))
      let a3 := extractByte b (Fin.ofNat 16 (4 * c.val + 3))
      extractByte (mixColumns b) (Fin.ofNat 16 (4 * c.val)) = gmul a0 2 ^^^ gmul a1 3 ^^^ a2 ^^^ a3 ∧
      extractByte (mixColumns b) (Fin.ofNat 16 (4 * c.val + 1)) = a0 ^^^ gmul a1 2 ^^^ gmul a2 3 ^^^ a3 ∧
      extractByte (mixColumns b) (Fin.ofNat 16 (4 * c.val + 2)) = a0 ^^^ a1 ^^^ gmul a2 2 ^^^ gmul a3 3 ∧
      extractByte (mixColumns b) (Fin.ofNat 16 (4 * c.val + 3)) = gmul a0 3 ^^^ a1 ^^^ a2 ^^^ gmul a3 2)

/-- R122: the field product distributes over addition, and its small cases. -/
def Obligations.FieldProductIsLinear : Prop :=
  ∀ a b c : Byte,
    gmul a (b ^^^ c) = gmul a b ^^^ gmul a c ∧ gmul (a ^^^ b) c = gmul a c ^^^ gmul b c ∧
    gmul a 1 = a ∧ gmul a 2 = xtime a ∧ gmul a 3 = xtime a ^^^ a

/-- R123: the table is the affine map of the inverse in the field, bit by bit. -/
def Obligations.SboxIsAffineOfInverse : Prop :=
  ∀ x : Byte, ∃ y : Byte, ((x = 0#8 ∧ y = 0#8) ∨ (x ≠ 0#8 ∧ gmul x y = 1#8)) ∧
    ∀ i : Fin 8, (sbox x).getLsbD i.val =
      (y.getLsbD i.val ^^ y.getLsbD ((i.val + 4) % 8) ^^ y.getLsbD ((i.val + 5) % 8) ^^
        y.getLsbD ((i.val + 6) % 8) ^^ y.getLsbD ((i.val + 7) % 8) ^^ (0x63#8).getLsbD i.val)

/-- R128 to R132: the round constants, the word operations byte by byte (and that they commute), the schedule step by
step, and each word of a step in closed form. -/
def Obligations.KeyScheduleWordByWord : Prop :=
  (∀ key : Block, (keySchedule key)[0] = key ∧
    ∀ r (h : r < 10), (keySchedule key)[r + 1] = keyExpandStep (keySchedule key)[r] (r + 1)) ∧
  (∀ (p : Block) (r : Nat),
    let t := subWord (rotWord (blockWord p 3)) ^^^ (rcon r).setWidth 32
    blockWord (keyExpandStep p r) 0 = blockWord p 0 ^^^ t ∧
    blockWord (keyExpandStep p r) 1 = blockWord p 1 ^^^ blockWord p 0 ^^^ t ∧
    blockWord (keyExpandStep p r) 2 = blockWord p 2 ^^^ blockWord p 1 ^^^ blockWord p 0 ^^^ t ∧
    blockWord (keyExpandStep p r) 3 = blockWord p 3 ^^^ blockWord p 2 ^^^ blockWord p 1 ^^^ blockWord p 0 ^^^ t) ∧
  (List.range 10).map (fun r => rcon (r + 1)) =
    [0x01#8, 0x02#8, 0x04#8, 0x08#8, 0x10#8, 0x20#8, 0x40#8, 0x80#8, 0x1B#8, 0x36#8] ∧
  (∀ r, 1 ≤ r → r < 10 → rcon (r + 1) = xtime (rcon r)) ∧
  (∀ w : BitVec 32,
    (rotWord w).extractLsb' 0 8 = w.extractLsb' 8 8 ∧ (rotWord w).extractLsb' 8 8 = w.extractLsb' 16 8 ∧
    (rotWord w).extractLsb' 16 8 = w.extractLsb' 24 8 ∧ (rotWord w).extractLsb' 24 8 = w.extractLsb' 0 8 ∧
    (∀ i : Fin 4, (subWord w).extractLsb' (8 * i.val) 8 = sbox (w.extractLsb' (8 * i.val) 8)) ∧
    subWord (rotWord w) = rotWord (subWord w))

/-- R134: the cipher, for any sequence of states that the rule's recurrence gives. -/
def Obligations.EncryptIsTenRounds : Prop :=
  ∀ (rk : RoundKeys) (pt : Block) (st : Nat → Block),
    st 0 = pt ^^^ rk[0] →
    (∀ r (h : r < 9), st (r + 1) = mixColumns (shiftRows (subBytes (st r))) ^^^ rk[r + 1]) →
    encrypt rk pt = shiftRows (subBytes (st 9)) ^^^ rk[10]

/-! ### The engine's commands -/

/-- R140, ENG.KEY: it completes in every state, and all it changes is said. -/
def Obligations.EngKeyReplacesTheSchedule : Prop :=
  ∀ s : State,
    exec .engKey s =
      .next { s with
        engRk := keySchedule (fromHalves (State.operands s).argHi (State.operands s).argLo)
        status := endedStatus s.status s.gen .ok
        pend := none }

/-- R141, ENG.ENC: it completes in every state, and all it changes is said. -/
def Obligations.EngEncEncryptsOneBlock : Prop :=
  ∀ s : State,
    exec .engEnc s =
      .next { s with
        resLo := (encrypt s.engRk (fromHalves (State.operands s).argHi (State.operands s).argLo)).extractLsb' 0 64
        resHi := (encrypt s.engRk (fromHalves (State.operands s).argHi (State.operands s).argLo)).extractLsb' 64 64
        status := endedStatus s.status s.gen .ok
        pend := none }

/-- R142, ENG.CTR: where it completes, what it writes and all else it leaves, and where it faults. -/
def Obligations.EngCtrWritesTheCounterBlocks : Prop :=
  ∀ s : State,
    ((State.opB s = 0 ∨
        (State.dst s + 16 * State.opB s ≤ 2 ^ s.params.addrW ∧
          Params.admits s.params (State.dst s) (16 * State.opB s) = true)) →
      ∃ t, exec .engCtr s = .next t ∧
        t = { s with mem := t.mem, status := endedStatus s.status s.gen .ok, pend := none } ∧
        (∀ i (m : Fin 16), i < State.opB s →
          Memory.get? t.mem (State.dst s + 16 * i + m.val) =
            some (extractByte
              (encrypt s.engRk (ctrBlock (BitVec.ofNat 64 ((State.opA s + i) % 2 ^ 64)))) m)) ∧
        (∀ x, ¬ inRange (State.dst s, 16 * State.opB s) x → Memory.get? t.mem x = Memory.get? s.mem x)) ∧
    (0 < State.opB s → 2 ^ s.params.addrW < State.dst s + 16 * State.opB s →
      exec .engCtr s = .fault .dmaRange) ∧
    (0 < State.opB s → State.dst s + 16 * State.opB s ≤ 2 ^ s.params.addrW →
      Params.admits s.params (State.dst s) (16 * State.opB s) = false → exec .engCtr s = .fault .dmaDenied)

/-! ### The generator's procedures -/

/-- R162: the refill. -/
def Obligations.RefillEncryptsTheNextBlocks : Prop :=
  ∀ g : Gen,
    (g.n = 0#64 → Gen.refill g = (g, .notSeeded)) ∧
    (g.n ≠ 0#64 → ∃ buf : List Byte,
      Gen.refill g = ({ g with buf := buf, ctr := g.ctr + g.n, cursor := 0#64 }, .ok) ∧
      buf.length = 16 * g.n.toNat ∧
      ∀ k (m : Fin 16), k < g.n.toNat →
        buf[16 * k + m.val]? =
          some (extractByte (encrypt g.rk (ctrBlock (BitVec.ofNat 64 ((g.ctr.toNat + k) % 2 ^ 64)))) m))

/-- R166: the closed form of `Consume(L)`, its refills counted, for a Ready generator that meets R38's invariants (stated of every run by
StepKeepsTheInvariant). -/
def Obligations.ConsumeClosedForm : Prop :=
  ∀ (nmax : Nat) (g : Gen) (len : Nat), nmax ≤ 2 ^ 32 → Gen.inv nmax g → g.n ≠ 0#64 →
    (Gen.consume g len).1 = keystream g.rk (Gen.streamPos g) len ∧
    (Gen.consume g len).2 =
      { ((fun h : Gen => (Gen.refill h).1)^[(g.cursor.toNat + len) / (16 * g.n.toNat)] g) with
        cursor := BitVec.ofNat 64 ((g.cursor.toNat + len) % (16 * g.n.toNat)) } ∧
    (Gen.consume g len).2.cursor.toNat = (g.cursor.toNat + len) % (16 * g.n.toNat) ∧
    (Gen.consume g len).2.ctr.toNat =
      (g.ctr.toNat + (g.cursor.toNat + len) / (16 * g.n.toNat) * g.n.toNat) % 2 ^ 64 ∧
    (Gen.consume g len).2.n = g.n ∧ (Gen.consume g len).2.rk = g.rk ∧
    (Gen.consume g len).2.cursor.toNat < 16 * g.n.toNat

/-- R164: consuming `L` bytes moves the stream position on by `L` (the counter wraps at `2^64`, so positions are taken
modulo `2^68`), and the buffer still holds the stream. -/
def Obligations.ConsumeMovesTheStreamPosition : Prop :=
  ∀ (nmax : Nat) (g : Gen) (len : Nat), nmax ≤ 2 ^ 32 → Gen.inv nmax g → g.n ≠ 0#64 →
    Gen.streamPos (Gen.consume g len).2 % 2 ^ 68 = (Gen.streamPos g + len) % 2 ^ 68 ∧
    Gen.inv nmax (Gen.consume g len).2

/-- R179: the bytes handed out depend on the key and the stream position alone, not on `GEN.N` or the buffer. -/
def Obligations.KeystreamIgnoresBufferSize : Prop :=
  ∀ (nmax : Nat) (g g' : Gen) (len : Nat), nmax ≤ 2 ^ 32 → Gen.inv nmax g → Gen.inv nmax g' →
    g.n ≠ 0#64 → g'.n ≠ 0#64 → g.rk = g'.rk → Gen.streamPos g % 2 ^ 68 = Gen.streamPos g' % 2 ^ 68 →
    (Gen.consume g len).1 = (Gen.consume g' len).1 ∧
    Gen.streamPos (Gen.consume g len).2 % 2 ^ 68 = Gen.streamPos (Gen.consume g' len).2 % 2 ^ 68

/-- R179: how a consumption is split does not matter, neither to the bytes nor to the generator left. -/
def Obligations.ConsumeSplitsAnywhere : Prop :=
  ∀ (nmax : Nat) (g : Gen) (a b : Nat), nmax ≤ 2 ^ 32 → Gen.inv nmax g → g.n ≠ 0#64 →
    (Gen.consume g (a + b)).1 = (Gen.consume g a).1 ++ (Gen.consume (Gen.consume g a).2 b).1 ∧
    (Gen.consume g (a + b)).2 = (Gen.consume (Gen.consume g a).2 b).2

/-- R178, R162: from counter 0, the counters that `k` refills encrypt are `0 .. k*N - 1`, in order and each once, as long as
`k*N <= 2^64`: block `j` of refill `i` takes counter `i*N + j`. -/
def Obligations.RefillsUseContiguousCounters : Prop :=
  ∀ (g : Gen) (k i j : Nat), g.ctr = 0#64 → k * g.n.toNat ≤ 2 ^ 64 → i < k → j < g.n.toNat →
    (((fun h : Gen => (Gen.refill h).1)^[i] g).ctr.toNat + j) % 2 ^ 64 = i * g.n.toNat + j ∧
    ((fun h : Gen => (Gen.refill h).1)^[i] g).n = g.n ∧
    ((fun h : Gen => (Gen.refill h).1)^[i] g).rk = g.rk ∧
    ∀ m : Fin 16, ((fun h : Gen => (Gen.refill h).1)^[i + 1] g).buf[16 * j + m.val]? =
      some (extractByte (encrypt g.rk (ctrBlock (BitVec.ofNat 64 (i * g.n.toNat + j)))) m)

/-! ### The generator's commands -/

/-- R163: the gate. Unseeded, each of the six commands finishes NOT_SEEDED and changes nothing else. -/
def Obligations.UnseededCommandsFinishNotSeeded : Prop :=
  ∀ (s : State) (i : Instr), s.gen.n = 0#64 → i.wellFormed = true →
    (i = .genGetbytes ∨ (∃ sz, i = .genGetval sz) ∨ i = .genGetbools ∨ i = .genGetbit ∨ i = .genView ∨
      i = .genGetseed) →
    exec i s = gateStops s

/-- R170, GEN.SEED: it completes in every state. -/
def Obligations.SeedStartsTheStreamAtCounterZero : Prop :=
  ∀ s : State,
    (s.gen.n = 0#64 → s.params.nmax < State.opA s →
      exec .genSeed s = .next { s with status := endedStatus s.status s.gen .badSize, pend := none }) ∧
    (s.gen.n = 0#64 → State.opA s = 0 →
      exec .genSeed s =
        .next { s with
          gen := { s.gen with
            rk := keySchedule (fromHalves (State.operands s).argHi (State.operands s).argLo)
            ctr := 0#64 }
          status := endedStatus s.status s.gen .notSeeded
          pend := none }) ∧
    (∀ n : Word,
      ((s.gen.n = 0#64 ∧ 0 < State.opA s ∧ State.opA s ≤ s.params.nmax ∧ n = (State.operands s).argA) ∨
        (s.gen.n ≠ 0#64 ∧ n = s.gen.n)) →
      ∃ buf : List Byte,
        exec .genSeed s =
          .next { s with
            gen :=
              { rk := keySchedule (fromHalves (State.operands s).argHi (State.operands s).argLo)
                n := n
                ctr := n
                cursor := 0#64
                buf := buf }
            status := ⟨false, true, s.status.viewValid, .ok⟩
            pend := none } ∧
        buf.length = 16 * n.toNat ∧
        ∀ k (m : Fin 16), k < n.toNat →
          buf[16 * k + m.val]? =
            some (extractByte
              (encrypt (keySchedule (fromHalves (State.operands s).argHi (State.operands s).argLo))
                (ctrBlock (BitVec.ofNat 64 k))) m))

/-- R171, GEN.GETBYTES: its gate, where it completes on a Ready generator, what it writes and all else it leaves, and
where it faults. The generator it leaves is ConsumeClosedForm's. -/
def Obligations.GetbytesWritesTheKeystream : Prop :=
  ∀ s : State, (s.gen.n = 0#64 → exec .genGetbytes s = gateStops s) ∧
    (Params.wf s.params → Gen.inv s.params.nmax s.gen → s.gen.n ≠ 0#64 →
      State.opA s = 0 ∨
        (State.dst s + State.opA s ≤ 2 ^ s.params.addrW ∧
          Params.admits s.params (State.dst s) (State.opA s) = true) →
      ∃ t, exec .genGetbytes s = .next t ∧
        t = { s with
          gen := (Gen.consume s.gen (State.opA s)).2
          mem := t.mem
          status := endedStatus s.status s.gen .ok
          pend := none } ∧
        (∀ i, i < State.opA s →
          Memory.get? t.mem (State.dst s + i) = some (ksByte s.gen.rk (Gen.streamPos s.gen + i))) ∧
        (∀ x, ¬ inRange (State.dst s, State.opA s) x → Memory.get? t.mem x = Memory.get? s.mem x)) ∧
    (s.gen.n ≠ 0#64 → 0 < State.opA s → 2 ^ s.params.addrW < State.dst s + State.opA s →
      exec .genGetbytes s = .fault .dmaRange) ∧
    (s.gen.n ≠ 0#64 → 0 < State.opA s → State.dst s + State.opA s ≤ 2 ^ s.params.addrW →
      Params.admits s.params (State.dst s) (State.opA s) = false → exec .genGetbytes s = .fault .dmaDenied)

/-- R173, R182, GEN.GETBOOLS: its gate, and on a Ready generator every byte written is the low bit of a keystream byte, so 0 or 1. -/
def Obligations.GetboolsWritesMaskedKeystream : Prop :=
  ∀ s : State, (s.gen.n = 0#64 → exec .genGetbools s = gateStops s) ∧
    (Params.wf s.params → Gen.inv s.params.nmax s.gen → s.gen.n ≠ 0#64 →
      State.opA s = 0 ∨
        (State.dst s + State.opA s ≤ 2 ^ s.params.addrW ∧
          Params.admits s.params (State.dst s) (State.opA s) = true) →
      ∃ t, exec .genGetbools s = .next t ∧
        t = { s with
          gen := (Gen.consume s.gen (State.opA s)).2
          mem := t.mem
          status := endedStatus s.status s.gen .ok
          pend := none } ∧
        (∀ i, i < State.opA s →
          ∃ b : Byte, (b = 0#8 ∨ b = 1#8) ∧ b = ksByte s.gen.rk (Gen.streamPos s.gen + i) &&& 0x01#8 ∧
            Memory.get? t.mem (State.dst s + i) = some b) ∧
        (∀ x, ¬ inRange (State.dst s, State.opA s) x → Memory.get? t.mem x = Memory.get? s.mem x)) ∧
    (s.gen.n ≠ 0#64 → 0 < State.opA s → 2 ^ s.params.addrW < State.dst s + State.opA s →
      exec .genGetbools s = .fault .dmaRange) ∧
    (s.gen.n ≠ 0#64 → 0 < State.opA s → State.dst s + State.opA s ≤ 2 ^ s.params.addrW →
      Params.admits s.params (State.dst s) (State.opA s) = false → exec .genGetbools s = .fault .dmaDenied)

/-- R172, GEN.GETVAL: its gate, and on a Ready generator the value's keystream bytes, little-endian, unused high bytes zero. -/
def Obligations.GetvalReturnsTheLittleEndianValue : Prop :=
  ∀ (s : State) (sz : BitVec 3), sz ≤ 4#3 →
    (s.gen.n = 0#64 → exec (.genGetval sz) s = gateStops s) ∧
    (Params.wf s.params → Gen.inv s.params.nmax s.gen → s.gen.n ≠ 0#64 →
      exec (.genGetval sz) s =
        .next { s with
          gen := (Gen.consume s.gen (2 ^ sz.toNat)).2
          resLo := BitVec.ofNat 64 (le (keystream s.gen.rk (Gen.streamPos s.gen) (min (2 ^ sz.toNat) 8)))
          resHi := if sz = 4#3 then BitVec.ofNat 64 (le (keystream s.gen.rk (Gen.streamPos s.gen + 8) 8)) else 0#64
          status := endedStatus s.status s.gen .ok
          pend := none })

/-- R174, GEN.GETBIT: its gate, and its bit on a Ready generator. -/
def Obligations.GetbitReturnsTheLowBit : Prop :=
  ∀ s : State,
    (s.gen.n = 0#64 → exec .genGetbit s = gateStops s) ∧
    (Params.wf s.params → Gen.inv s.params.nmax s.gen → s.gen.n ≠ 0#64 →
      exec .genGetbit s =
        .next { s with
          gen := (Gen.consume s.gen 1).2
          resLo := if (ksByte s.gen.rk (Gen.streamPos s.gen)).getLsbD 0 then 1#64 else 0#64
          resHi := 0#64
          status := endedStatus s.status s.gen .ok
          pend := none })

/-- R175, GEN.VIEW: its gate; on a Ready generator, whose cursor is at most `16*N` (R34), the window begins at the cursor, after a
refill if the buffer was exhausted, and the cursor moves past it. -/
def Obligations.ViewHandsOutTheRestOfTheBuffer : Prop :=
  ∀ s : State, (s.gen.n = 0#64 → exec .genView s = gateStops s) ∧
    (Params.wf s.params → Gen.inv s.params.nmax s.gen → s.gen.n ≠ 0#64 →
      ∀ g : Gen, g = (if s.gen.cursor.toNat = 16 * s.gen.n.toNat then (Gen.refill s.gen).1 else s.gen) →
      ∀ len : Nat, len = min (State.opA s) (16 * g.n.toNat - g.cursor.toNat) →
        exec .genView s =
          .next { s with
            viewOff := g.cursor
            viewLen := BitVec.ofNat 64 len
            gen := { g with cursor := BitVec.ofNat 64 (g.cursor.toNat + len) }
            status := ⟨false, true, true, .ok⟩
            pend := none } ∧
        g.cursor.toNat + len ≤ 16 * g.n.toNat)

/-- R176, GEN.GETSEED: its gate, and on a Ready generator the key, and no keystream consumed. -/
def Obligations.GetseedReturnsTheKey : Prop :=
  ∀ s : State, (s.gen.n = 0#64 → exec .genGetseed s = gateStops s) ∧
    (s.gen.n ≠ 0#64 →
      exec .genGetseed s =
        .next { s with
          resLo := (s.gen.rk[0]).extractLsb' 0 64
          resHi := (s.gen.rk[0]).extractLsb' 64 64
          status := endedStatus s.status s.gen .ok
          pend := none })

/-- R177, GEN.RELEASE: it completes in every state. Nothing is said of the buffer, which is unspecified (log 8). -/
def Obligations.ReleaseLeavesTheGeneratorUnseeded : Prop :=
  ∀ s : State, ∃ buf : List Byte,
    exec .genRelease s =
      .next { s with
        gen := { rk := keySchedule zeroBlock, n := 0#64, ctr := 0#64, cursor := 0#64, buf := buf }
        status := ⟨false, false, s.status.viewValid, .ok⟩
        pend := none }

/-- R209: which condition decides when several apply. -/
def Obligations.OrderOfChecks : Prop :=
  ∀ (s : State) (f : Nat × Nat), f = (State.dst s, State.opA s) →
    (∀ p, s.status.busy = true → s.pend = some p → p.legal = false →
      engineTurn s = .next { s with pend := none, status := endedStatus s.status s.gen .illegal }) ∧
    (s.gen.n = 0#64 → s.params.nmax < State.opA s →
      ∃ t, exec .genSeed s = .next t ∧ t.status.err = .badSize) ∧
    (s.gen.n = 0#64 → State.opA s = 0 → ∃ t, exec .genSeed s = .next t ∧ t.status.err = .notSeeded) ∧
    (s.gen.n = 0#64 → ∀ i, (i = .genGetbytes ∨ i = .genGetbools) →
      ∃ t, exec i s = .next t ∧ t.status.err = .notSeeded ∧ t.mem = s.mem) ∧
    (s.gen.n ≠ 0#64 → 0 < f.2 → 2 ^ s.params.addrW < f.1 + f.2 → ∀ i, (i = .genGetbytes ∨ i = .genGetbools) →
      exec i s = .fault .dmaRange) ∧
    (s.gen.n ≠ 0#64 → 0 < f.2 → f.1 + f.2 ≤ 2 ^ s.params.addrW → Params.admits s.params f.1 f.2 = false →
      ∀ i, (i = .genGetbytes ∨ i = .genGetbools) → exec i s = .fault .dmaDenied)

/-- R206: what a command that finishes with an error leaves: all but STATUS and PEND, except GEN.SEED's NOT_SEEDED,
which has replaced GEN.RK and zeroed GEN.ctr. -/
def Obligations.ErrorsChangeOnlyStatus : Prop :=
  ∀ (s t : State) (p : Pend), s.status.busy = true → s.pend = some p → engineTurn s = .next t → t.status.err ≠ .ok →
    t = { s with status := endedStatus s.status s.gen t.status.err, pend := none } ∨
    (Pend.instr? p = some .genSeed ∧ t.status.err = .notSeeded ∧ s.gen.n = 0#64 ∧
      t = { s with
        gen := { s.gen with rk := keySchedule (fromHalves p.args.argHi p.args.argLo), ctr := 0#64 }
        status := endedStatus s.status s.gen .notSeeded
        pend := none })

/-- R23: the result registers change only by ENG.ENC, GEN.GETVAL, GEN.GETBIT and GEN.GETSEED finishing OK. -/
def Obligations.ResultRegistersChangeOnlyByResults : Prop :=
  ∀ (i : Instr) (s t : State), exec i s = .next t →
    ((i ≠ .engEnc ∧ (∀ sz, i ≠ .genGetval sz) ∧ i ≠ .genGetbit ∧ i ≠ .genGetseed) ∨ t.status.err ≠ .ok) →
    t.resLo = s.resLo ∧ t.resHi = s.resHi

/-- R30: which commands change which key context, and that the engine's commands leave the generator alone. -/
def Obligations.KeyContextsAreSeparate : Prop :=
  ∀ (i : Instr) (s t : State), exec i s = .next t →
    (i ≠ .engKey → t.engRk = s.engRk) ∧
    (i ≠ .genSeed → i ≠ .genRelease → t.gen.rk = s.gen.rk) ∧
    (isGen i = false → t.gen = s.gen)

/-- R30: nothing shows ENG.RK but ENG.ENC and ENG.CTR. No other command and no host access depends on it: with another
ENG.RK the outcome is the same, but for ENG.RK itself (which ENG.KEY replaces). -/
def Obligations.EngineKeyIsShownByNoOtherCommand : Prop :=
  ∀ (s : State) (k : RoundKeys),
    (∀ i, isGen i = true → exec i { s with engRk := k } = mapNext (fun t => { t with engRk := k }) (exec i s)) ∧
    exec .engKey { s with engRk := k } = exec .engKey s ∧
    (∀ a n, State.hostRead { s with engRk := k } a n =
      mapNext (fun t => { t with engRk := k }) (State.hostRead s a n)) ∧
    (∀ a bs, State.hostWrite { s with engRk := k } a bs =
      mapNext (fun t => { t with engRk := k }) (State.hostWrite s a bs))

/-- R53, R54: an ENGINE turn changes no byte of host memory outside the pending command's footprint, and one that faults
answers no state at all. -/
def Obligations.EngineWritesOnlyItsFootprint : Prop :=
  ∀ s t : State, engineTurn s = .next t →
    ∀ x, ¬ inRange (State.footprint s) x → Memory.get? t.mem x = Memory.get? s.mem x

/-- R38 point 4: after GEN.SEED, GEN.GETBYTES, GEN.GETVAL, GEN.GETBOOLS and GEN.GETBIT that finish OK the cursor is below
`16*N`. -/
def Obligations.ConsumingCommandsLeaveUnreadBytes : Prop :=
  ∀ (i : Instr) (s t : State), exec i s = .next t → t.status.err = .ok →
    (i = .genSeed ∨ i = .genGetbytes ∨ (∃ sz, i = .genGetval sz) ∨ i = .genGetbools ∨ i = .genGetbit) →
    t.gen.cursor.toNat < 16 * t.gen.n.toNat

/-- R181: the bytes readable through a view are those a GEN.GETBYTES of the view's length, issued instead of it, writes. -/
def Obligations.ViewShowsWhatGetbytesWouldWrite : Prop :=
  ∀ s s' v g : State, Params.wf s.params → Gen.inv s.params.nmax s.gen → s.gen.n ≠ 0#64 →
    exec .genView s = .next v →
    s'.gen = s.gen → (State.operands s').argA = v.viewLen → exec .genGetbytes s' = .next g →
    ∀ i, i < v.viewLen.toNat →
      ∃ b, v.gen.buf[v.viewOff.toNat + i]? = some b ∧ Memory.get? g.mem (State.dst s' + i) = some b

/-! ### The whole machine -/

/-- The invariant holds at reset. -/
def Obligations.ResetMeetsTheInvariant : Prop := State.inv State.reset

/-- R38, R31, R27, R36, R28: every step from a state that meets the invariant leads to one that meets it: the generator
invariants, whole key schedules, BUSY with PEND, SEEDED with GEN.N, the view inside the live buffer, and host memory in
its canonical form. -/
def Obligations.StepKeepsTheInvariant : Prop :=
  ∀ s t : State, State.inv s → step s = .next t → State.inv t

/-- R207: a marked state has no step; and the steps of an unmarked one mark nothing, since a raise is an outcome (log 4). -/
def Obligations.FaultedStateHasNoStep : Prop :=
  (∀ (s : State) (f : Fault), s.fault = some f → step s = .fault f) ∧
  (∀ s t : State, step s = .next t → s.fault = none ∧ t.fault = none)

/-- R8, R37: no step changes the parameters, so CAP reads the same always. The parameters stand in the state by the
model's choice (log 1). -/
def Obligations.StepKeepsTheParameters : Prop :=
  ∀ s t : State, step s = .next t → t.params = s.params ∧ State.regValue t .cap = State.regValue s .cap

/-- R26: BUSY becomes 1 only by an accepted write to CMD, and 0 only by the ENGINE's turn or a reset. -/
def Obligations.BusyChangesOnlyByIssueAndFinish : Prop :=
  ∀ s t : State, step s = .next t →
    (s.status.busy = false → t.status.busy = true →
      ∃ bs es, s.events = .write s.params.base bs :: es ∧ bs.length = 8) ∧
    (s.status.busy = true → t.status.busy = false →
      s.events = [] ∨ ∃ es, s.events = .engine :: es ∨ s.events = .reset :: es)

/-- R28: VIEW_VALID is set only by GEN.VIEW finishing OK, and every accepted write to CMD clears it. -/
def Obligations.ViewValidIsSetOnlyByView : Prop :=
  ∀ s t : State, step s = .next t →
    (s.status.viewValid = false → t.status.viewValid = true →
      t.status.err = .ok ∧ ∃ p, s.pend = some p ∧ Pend.instr? p = some .genView ∧
        (s.events = [] ∨ ∃ es, s.events = .engine :: es)) ∧
    (s.status.busy = false → t.status.busy = true → t.status.viewValid = false)

/-- R21: no command changes an operand register; only a host write and a reset do. -/
def Obligations.OperandRegistersBelongToTheHost : Prop :=
  ∀ s t : State, step s = .next t → t.args ≠ s.args →
    ∃ es, s.events = .reset :: es ∨
      ∃ off bs, off ∈ [0x010, 0x018, 0x020, 0x028, 0x030] ∧ s.events = .write (s.params.base + off) bs :: es

/-- R247: a pending command is performed. From a busy state with `n` events to come, within `n` steps a state is reached
with the command still pending, and in its very next step the ENGINE performs it (R240), or a reset abandons it (R231),
or a host access faults. The events left there are the rest of the first ones, so with no reset and no host access among
them it is performed. That the ENGINE moves when no event is left is the model's form of fairness (log 3, 18). -/
def Obligations.PendingCommandIsPerformed : Prop :=
  ∀ s : State, s.fault = none → s.status.busy = true → s.pend ≠ none →
    ∃ (k : Nat) (u : State), k ≤ s.events.length ∧ Host.Core.run Sys2Proof.core k s = .next u ∧
      u.events = s.events.drop k ∧ u.status.busy = true ∧ u.pend = s.pend ∧
      (((u.events = [] ∨ ∃ es, u.events = .engine :: es) ∧
          step u = engineTurn { u with events := u.events.tail } ∧
          ((∃ v : State, step u = .next v ∧ v.status.busy = false ∧ v.pend = none) ∨ ∃ f : Fault, step u = .fault f)) ∨
        ((∃ es, u.events = .reset :: es) ∧
          ∃ v : State, step u = .next v ∧ v.status.busy = false ∧ v.pend = none) ∨
        ((∃ a n es, u.events = .read a n :: es) ∧ ∃ f : Fault, step u = .fault f) ∨
        ((∃ a bs es, u.events = .write a bs :: es) ∧ ∃ f : Fault, step u = .fault f))
end

