-- ==== Sys2Proof/Laws/Bytes.lean ====
section
/-! SUPPORT. Byte order, blocks as bytes, and the bytes of a counter range (R10, R101, R107, R138). -/

namespace Sys2Proof.Machine

@[simp] theorem bytesLE_length (n v : Nat) : (bytesLE n v).length = n := by
  induction n generalizing v with
  | zero => rfl
  | succ n ih => simp [bytesLE, ih]

@[simp] theorem bytesOfWord_length (w : Word) : (bytesOfWord w).length = 8 := bytesLE_length 8 _

@[simp] theorem blockBytes_length (b : Block) : (blockBytes b).length = 16 := bytesLE_length 16 _

/-- R10: byte `i` of `bytesLE_n(v)` is `v[8*i+7 : 8*i]`. -/
theorem bytesLE_getElem? (n v i : Nat) (h : i < n) :
    (bytesLE n v)[i]? = some (BitVec.ofNat 8 (v / 256 ^ i)) := by
  induction n generalizing v i with
  | zero => omega
  | succ n ih =>
    cases i with
    | zero => simp [bytesLE]
    | succ i =>
      simp only [bytesLE, List.getElem?_cons_succ]
      rw [ih _ _ (by omega), Nat.div_div_eq_div_mul, ← Nat.pow_succ']

theorem le_lt (bs : List Byte) : le bs < 256 ^ bs.length := by
  induction bs with
  | nil => simp [le]
  | cons b bs ih =>
    have := b.isLt
    simp only [le, List.length_cons, Nat.pow_succ]
    omega

/-- R10: the two readings are inverses, one way. -/
theorem le_bytesLE (n v : Nat) (h : v < 256 ^ n) : le (bytesLE n v) = v := by
  induction n generalizing v with
  | zero => simp at h; subst h; rfl
  | succ n ih =>
    have hv : v / 256 < 256 ^ n := Nat.div_lt_of_lt_mul (by rw [← Nat.pow_succ']; exact h)
    simp only [bytesLE, le, ih _ hv, BitVec.toNat_ofNat]
    omega

/-- R10: and the other way. -/
theorem bytesLE_le (bs : List Byte) : bytesLE bs.length (le bs) = bs := by
  induction bs with
  | nil => rfl
  | cons b bs ih =>
    have hb := b.isLt
    have hd : (b.toNat + 256 * le bs) / 256 = le bs := by omega
    have hm : BitVec.ofNat 8 (b.toNat + 256 * le bs) = b := by
      apply BitVec.eq_of_toNat_eq
      simp only [BitVec.toNat_ofNat]
      omega
    simp only [List.length_cons, bytesLE, le, hd, hm, ih]

/-- A register value is its bytes read back (R52). -/
@[simp] theorem wordOfBytes_bytesOfWord (w : Word) : wordOfBytes (bytesOfWord w) = w := by
  unfold wordOfBytes bytesOfWord
  rw [le_bytesLE _ _ (by have := w.isLt; omega), BitVec.ofNat_toNat, BitVec.setWidth_eq]

/-- Byte `i` of a block's bytes is `extractByte` of it (R51, R107). -/
theorem blockBytes_getElem? (b : Block) (i : Nat) (h : i < 16) :
    (blockBytes b)[i]? = some (extractByte b (Fin.ofNat 16 i)) := by
  rw [blockBytes, bytesLE_getElem? _ _ _ h]
  congr 1
  apply BitVec.eq_of_toNat_eq
  simp [extractByte, Nat.mod_eq_of_lt h, Nat.shiftRight_eq_div_pow, Nat.pow_mul]

/-- The bytes of a run of blocks: byte `j` is byte `j mod 16` of block `j / 16`. -/
theorem flatMap_blockBytes_getElem? (l : List Block) (j : Nat) :
    (l.flatMap blockBytes)[j]? = (l[j / 16]?).map fun b => extractByte b (Fin.ofNat 16 j) := by
  induction l generalizing j with
  | nil => simp
  | cons b l ih =>
    rw [List.flatMap_cons]
    by_cases h : j < 16
    · rw [List.getElem?_append_left (by simpa using h), blockBytes_getElem? _ _ h, Nat.div_eq_of_lt h]
      simp
    · have e : j / 16 = (j - 16) / 16 + 1 := by omega
      have e' : Fin.ofNat 16 (j - 16) = Fin.ofNat 16 j := by ext; simp only [Fin.val_ofNat]; omega
      rw [List.getElem?_append_right (by simpa using h), blockBytes_length, ih, e, List.getElem?_cons_succ, e']

theorem flatMap_blockBytes_length (l : List Block) : (l.flatMap blockBytes).length = 16 * l.length := by
  induction l with
  | nil => rfl
  | cons b l ih => rw [List.flatMap_cons, List.length_append, ih, blockBytes_length, List.length_cons]; omega

@[simp] theorem encryptCounterRange_length (rk : RoundKeys) (base : Word) (n : Nat) :
    (encryptCounterRange rk base n).length = n := by simp [encryptCounterRange]

/-- R138: element `i` of the range. -/
theorem encryptCounterRange_getElem? (rk : RoundKeys) (base : Word) (n i : Nat) (h : i < n) :
    (encryptCounterRange rk base n)[i]? = some (encrypt rk (ctrBlock (base + BitVec.ofNat 64 i))) := by
  simp [encryptCounterRange, h]

end Sys2Proof.Machine
end

