-- ==== Sys2Proof/Laws/State.lean ====
section
/-! SUPPORT. One lemma for each field under each named update of the state, and the same for the generator. -/

namespace Sys2Proof.Machine

/-! ### State.finish -/

@[simp] theorem State.finish_params (s : State) (code : ErrCode) :
    (State.finish s code).params = s.params := rfl
@[simp] theorem State.finish_args (s : State) (code : ErrCode) :
    (State.finish s code).args = s.args := rfl
@[simp] theorem State.finish_resLo (s : State) (code : ErrCode) :
    (State.finish s code).resLo = s.resLo := rfl
@[simp] theorem State.finish_resHi (s : State) (code : ErrCode) :
    (State.finish s code).resHi = s.resHi := rfl
@[simp] theorem State.finish_viewOff (s : State) (code : ErrCode) :
    (State.finish s code).viewOff = s.viewOff := rfl
@[simp] theorem State.finish_viewLen (s : State) (code : ErrCode) :
    (State.finish s code).viewLen = s.viewLen := rfl
@[simp] theorem State.finish_status (s : State) (code : ErrCode) :
    (State.finish s code).status = { s.status with err := code, seeded := decide (s.gen.n ≠ 0#64), busy := false } := rfl
@[simp] theorem State.finish_engRk (s : State) (code : ErrCode) :
    (State.finish s code).engRk = s.engRk := rfl
@[simp] theorem State.finish_gen (s : State) (code : ErrCode) :
    (State.finish s code).gen = s.gen := rfl
@[simp] theorem State.finish_pend (s : State) (code : ErrCode) :
    (State.finish s code).pend = none := rfl
@[simp] theorem State.finish_fault (s : State) (code : ErrCode) :
    (State.finish s code).fault = s.fault := rfl
@[simp] theorem State.finish_mem (s : State) (code : ErrCode) :
    (State.finish s code).mem = s.mem := rfl
@[simp] theorem State.finish_events (s : State) (code : ErrCode) :
    (State.finish s code).events = s.events := rfl
@[simp] theorem State.finish_hostData (s : State) (code : ErrCode) :
    (State.finish s code).hostData = s.hostData := rfl
@[simp] theorem State.finish_draws (s : State) (code : ErrCode) :
    (State.finish s code).draws = s.draws := rfl

/-! ### State.finishIllegal -/

@[simp] theorem State.finishIllegal_params (s : State) :
    (State.finishIllegal s).params = s.params := rfl
@[simp] theorem State.finishIllegal_args (s : State) :
    (State.finishIllegal s).args = s.args := rfl
@[simp] theorem State.finishIllegal_resLo (s : State) :
    (State.finishIllegal s).resLo = s.resLo := rfl
@[simp] theorem State.finishIllegal_resHi (s : State) :
    (State.finishIllegal s).resHi = s.resHi := rfl
@[simp] theorem State.finishIllegal_viewOff (s : State) :
    (State.finishIllegal s).viewOff = s.viewOff := rfl
@[simp] theorem State.finishIllegal_viewLen (s : State) :
    (State.finishIllegal s).viewLen = s.viewLen := rfl
@[simp] theorem State.finishIllegal_status (s : State) :
    (State.finishIllegal s).status = { s.status with err := .illegal, seeded := decide (s.gen.n ≠ 0#64), busy := false } := rfl
@[simp] theorem State.finishIllegal_engRk (s : State) :
    (State.finishIllegal s).engRk = s.engRk := rfl
@[simp] theorem State.finishIllegal_gen (s : State) :
    (State.finishIllegal s).gen = s.gen := rfl
@[simp] theorem State.finishIllegal_pend (s : State) :
    (State.finishIllegal s).pend = none := rfl
@[simp] theorem State.finishIllegal_fault (s : State) :
    (State.finishIllegal s).fault = s.fault := rfl
@[simp] theorem State.finishIllegal_mem (s : State) :
    (State.finishIllegal s).mem = s.mem := rfl
@[simp] theorem State.finishIllegal_events (s : State) :
    (State.finishIllegal s).events = s.events := rfl
@[simp] theorem State.finishIllegal_hostData (s : State) :
    (State.finishIllegal s).hostData = s.hostData := rfl
@[simp] theorem State.finishIllegal_draws (s : State) :
    (State.finishIllegal s).draws = s.draws := rfl

/-! ### State.setRes -/

@[simp] theorem State.setRes_params (s : State) (lo hi : Word) :
    (State.setRes s lo hi).params = s.params := rfl
@[simp] theorem State.setRes_args (s : State) (lo hi : Word) :
    (State.setRes s lo hi).args = s.args := rfl
@[simp] theorem State.setRes_resLo (s : State) (lo hi : Word) :
    (State.setRes s lo hi).resLo = lo := rfl
@[simp] theorem State.setRes_resHi (s : State) (lo hi : Word) :
    (State.setRes s lo hi).resHi = hi := rfl
@[simp] theorem State.setRes_viewOff (s : State) (lo hi : Word) :
    (State.setRes s lo hi).viewOff = s.viewOff := rfl
@[simp] theorem State.setRes_viewLen (s : State) (lo hi : Word) :
    (State.setRes s lo hi).viewLen = s.viewLen := rfl
@[simp] theorem State.setRes_status (s : State) (lo hi : Word) :
    (State.setRes s lo hi).status = s.status := rfl
@[simp] theorem State.setRes_engRk (s : State) (lo hi : Word) :
    (State.setRes s lo hi).engRk = s.engRk := rfl
@[simp] theorem State.setRes_gen (s : State) (lo hi : Word) :
    (State.setRes s lo hi).gen = s.gen := rfl
@[simp] theorem State.setRes_pend (s : State) (lo hi : Word) :
    (State.setRes s lo hi).pend = s.pend := rfl
@[simp] theorem State.setRes_fault (s : State) (lo hi : Word) :
    (State.setRes s lo hi).fault = s.fault := rfl
@[simp] theorem State.setRes_mem (s : State) (lo hi : Word) :
    (State.setRes s lo hi).mem = s.mem := rfl
@[simp] theorem State.setRes_events (s : State) (lo hi : Word) :
    (State.setRes s lo hi).events = s.events := rfl
@[simp] theorem State.setRes_hostData (s : State) (lo hi : Word) :
    (State.setRes s lo hi).hostData = s.hostData := rfl
@[simp] theorem State.setRes_draws (s : State) (lo hi : Word) :
    (State.setRes s lo hi).draws = s.draws := rfl

/-! ### State.dmaWrite -/

@[simp] theorem State.dmaWrite_params (s : State) (a : Nat) (bs : List Byte) :
    (State.dmaWrite s a bs).params = s.params := rfl
@[simp] theorem State.dmaWrite_args (s : State) (a : Nat) (bs : List Byte) :
    (State.dmaWrite s a bs).args = s.args := rfl
@[simp] theorem State.dmaWrite_resLo (s : State) (a : Nat) (bs : List Byte) :
    (State.dmaWrite s a bs).resLo = s.resLo := rfl
@[simp] theorem State.dmaWrite_resHi (s : State) (a : Nat) (bs : List Byte) :
    (State.dmaWrite s a bs).resHi = s.resHi := rfl
@[simp] theorem State.dmaWrite_viewOff (s : State) (a : Nat) (bs : List Byte) :
    (State.dmaWrite s a bs).viewOff = s.viewOff := rfl
@[simp] theorem State.dmaWrite_viewLen (s : State) (a : Nat) (bs : List Byte) :
    (State.dmaWrite s a bs).viewLen = s.viewLen := rfl
@[simp] theorem State.dmaWrite_status (s : State) (a : Nat) (bs : List Byte) :
    (State.dmaWrite s a bs).status = s.status := rfl
@[simp] theorem State.dmaWrite_engRk (s : State) (a : Nat) (bs : List Byte) :
    (State.dmaWrite s a bs).engRk = s.engRk := rfl
@[simp] theorem State.dmaWrite_gen (s : State) (a : Nat) (bs : List Byte) :
    (State.dmaWrite s a bs).gen = s.gen := rfl
@[simp] theorem State.dmaWrite_pend (s : State) (a : Nat) (bs : List Byte) :
    (State.dmaWrite s a bs).pend = s.pend := rfl
@[simp] theorem State.dmaWrite_fault (s : State) (a : Nat) (bs : List Byte) :
    (State.dmaWrite s a bs).fault = s.fault := rfl
@[simp] theorem State.dmaWrite_mem (s : State) (a : Nat) (bs : List Byte) :
    (State.dmaWrite s a bs).mem = Memory.writeBytes s.mem a bs := rfl
@[simp] theorem State.dmaWrite_events (s : State) (a : Nat) (bs : List Byte) :
    (State.dmaWrite s a bs).events = s.events := rfl
@[simp] theorem State.dmaWrite_hostData (s : State) (a : Nat) (bs : List Byte) :
    (State.dmaWrite s a bs).hostData = s.hostData := rfl
@[simp] theorem State.dmaWrite_draws (s : State) (a : Nat) (bs : List Byte) :
    (State.dmaWrite s a bs).draws = s.draws := rfl

/-! ### State.deliver -/

@[simp] theorem State.deliver_params (s : State) (bs : List Byte) :
    (State.deliver s bs).params = s.params := rfl
@[simp] theorem State.deliver_args (s : State) (bs : List Byte) :
    (State.deliver s bs).args = s.args := rfl
@[simp] theorem State.deliver_resLo (s : State) (bs : List Byte) :
    (State.deliver s bs).resLo = s.resLo := rfl
@[simp] theorem State.deliver_resHi (s : State) (bs : List Byte) :
    (State.deliver s bs).resHi = s.resHi := rfl
@[simp] theorem State.deliver_viewOff (s : State) (bs : List Byte) :
    (State.deliver s bs).viewOff = s.viewOff := rfl
@[simp] theorem State.deliver_viewLen (s : State) (bs : List Byte) :
    (State.deliver s bs).viewLen = s.viewLen := rfl
@[simp] theorem State.deliver_status (s : State) (bs : List Byte) :
    (State.deliver s bs).status = s.status := rfl
@[simp] theorem State.deliver_engRk (s : State) (bs : List Byte) :
    (State.deliver s bs).engRk = s.engRk := rfl
@[simp] theorem State.deliver_gen (s : State) (bs : List Byte) :
    (State.deliver s bs).gen = s.gen := rfl
@[simp] theorem State.deliver_pend (s : State) (bs : List Byte) :
    (State.deliver s bs).pend = s.pend := rfl
@[simp] theorem State.deliver_fault (s : State) (bs : List Byte) :
    (State.deliver s bs).fault = s.fault := rfl
@[simp] theorem State.deliver_mem (s : State) (bs : List Byte) :
    (State.deliver s bs).mem = s.mem := rfl
@[simp] theorem State.deliver_events (s : State) (bs : List Byte) :
    (State.deliver s bs).events = s.events := rfl
@[simp] theorem State.deliver_hostData (s : State) (bs : List Byte) :
    (State.deliver s bs).hostData = bs := rfl
@[simp] theorem State.deliver_draws (s : State) (bs : List Byte) :
    (State.deliver s bs).draws = s.draws := rfl

/-! ### State.deliverDraw -/

@[simp] theorem State.deliverDraw_params (s : State) (f : Word → Word) :
    (State.deliverDraw s f).params = s.params := rfl
@[simp] theorem State.deliverDraw_args (s : State) (f : Word → Word) :
    (State.deliverDraw s f).args = s.args := rfl
@[simp] theorem State.deliverDraw_resLo (s : State) (f : Word → Word) :
    (State.deliverDraw s f).resLo = s.resLo := rfl
@[simp] theorem State.deliverDraw_resHi (s : State) (f : Word → Word) :
    (State.deliverDraw s f).resHi = s.resHi := rfl
@[simp] theorem State.deliverDraw_viewOff (s : State) (f : Word → Word) :
    (State.deliverDraw s f).viewOff = s.viewOff := rfl
@[simp] theorem State.deliverDraw_viewLen (s : State) (f : Word → Word) :
    (State.deliverDraw s f).viewLen = s.viewLen := rfl
@[simp] theorem State.deliverDraw_status (s : State) (f : Word → Word) :
    (State.deliverDraw s f).status = s.status := rfl
@[simp] theorem State.deliverDraw_engRk (s : State) (f : Word → Word) :
    (State.deliverDraw s f).engRk = s.engRk := rfl
@[simp] theorem State.deliverDraw_gen (s : State) (f : Word → Word) :
    (State.deliverDraw s f).gen = s.gen := rfl
@[simp] theorem State.deliverDraw_pend (s : State) (f : Word → Word) :
    (State.deliverDraw s f).pend = s.pend := rfl
@[simp] theorem State.deliverDraw_fault (s : State) (f : Word → Word) :
    (State.deliverDraw s f).fault = s.fault := rfl
@[simp] theorem State.deliverDraw_mem (s : State) (f : Word → Word) :
    (State.deliverDraw s f).mem = s.mem := rfl
@[simp] theorem State.deliverDraw_events (s : State) (f : Word → Word) :
    (State.deliverDraw s f).events = s.events := rfl
@[simp] theorem State.deliverDraw_hostData (s : State) (f : Word → Word) :
    (State.deliverDraw s f).hostData = bytesOfWord (f (Config.freeWord s.draws)) := rfl
@[simp] theorem State.deliverDraw_draws (s : State) (f : Word → Word) :
    (State.deliverDraw s f).draws = s.draws + 1 := rfl

/-! ### State.issue -/

@[simp] theorem State.issue_params (s : State) (c : Word) :
    (State.issue s c).params = s.params := rfl
@[simp] theorem State.issue_args (s : State) (c : Word) :
    (State.issue s c).args = s.args := rfl
@[simp] theorem State.issue_resLo (s : State) (c : Word) :
    (State.issue s c).resLo = s.resLo := rfl
@[simp] theorem State.issue_resHi (s : State) (c : Word) :
    (State.issue s c).resHi = s.resHi := rfl
@[simp] theorem State.issue_viewOff (s : State) (c : Word) :
    (State.issue s c).viewOff = s.viewOff := rfl
@[simp] theorem State.issue_viewLen (s : State) (c : Word) :
    (State.issue s c).viewLen = s.viewLen := rfl
@[simp] theorem State.issue_status (s : State) (c : Word) :
    (State.issue s c).status = Status.issued s.status := rfl
@[simp] theorem State.issue_engRk (s : State) (c : Word) :
    (State.issue s c).engRk = s.engRk := rfl
@[simp] theorem State.issue_gen (s : State) (c : Word) :
    (State.issue s c).gen = s.gen := rfl
@[simp] theorem State.issue_pend (s : State) (c : Word) :
    (State.issue s c).pend = some (State.latch s c) := rfl
@[simp] theorem State.issue_fault (s : State) (c : Word) :
    (State.issue s c).fault = s.fault := rfl
@[simp] theorem State.issue_mem (s : State) (c : Word) :
    (State.issue s c).mem = s.mem := rfl
@[simp] theorem State.issue_events (s : State) (c : Word) :
    (State.issue s c).events = s.events := rfl
@[simp] theorem State.issue_hostData (s : State) (c : Word) :
    (State.issue s c).hostData = s.hostData := rfl
@[simp] theorem State.issue_draws (s : State) (c : Word) :
    (State.issue s c).draws = s.draws := rfl

/-! ### State.resetPulse -/

@[simp] theorem State.resetPulse_params (s : State) :
    (State.resetPulse s).params = s.params := rfl
@[simp] theorem State.resetPulse_args (s : State) :
    (State.resetPulse s).args = ⟨0#64, 0#64, 0#64, 0#64, 0#64⟩ := rfl
@[simp] theorem State.resetPulse_resLo (s : State) :
    (State.resetPulse s).resLo = 0#64 := rfl
@[simp] theorem State.resetPulse_resHi (s : State) :
    (State.resetPulse s).resHi = 0#64 := rfl
@[simp] theorem State.resetPulse_viewOff (s : State) :
    (State.resetPulse s).viewOff = 0#64 := rfl
@[simp] theorem State.resetPulse_viewLen (s : State) :
    (State.resetPulse s).viewLen = 0#64 := rfl
@[simp] theorem State.resetPulse_status (s : State) :
    (State.resetPulse s).status = ⟨false, false, false, .ok⟩ := rfl
@[simp] theorem State.resetPulse_engRk (s : State) :
    (State.resetPulse s).engRk = keySchedule zeroBlock := rfl
@[simp] theorem State.resetPulse_gen (s : State) :
    (State.resetPulse s).gen = Gen.reset := rfl
@[simp] theorem State.resetPulse_pend (s : State) :
    (State.resetPulse s).pend = none := rfl
@[simp] theorem State.resetPulse_fault (s : State) :
    (State.resetPulse s).fault = s.fault := rfl
@[simp] theorem State.resetPulse_mem (s : State) :
    (State.resetPulse s).mem = State.abandon s := rfl
@[simp] theorem State.resetPulse_events (s : State) :
    (State.resetPulse s).events = s.events := rfl
@[simp] theorem State.resetPulse_hostData (s : State) :
    (State.resetPulse s).hostData = s.hostData := rfl
@[simp] theorem State.resetPulse_draws (s : State) :
    (State.resetPulse s).draws = s.draws + State.abandonedLength s := rfl

/-! ### Gen.advance -/

@[simp] theorem Gen.advance_rk (g : Gen) (k : Nat) : (Gen.advance g k).rk = g.rk := rfl
@[simp] theorem Gen.advance_n (g : Gen) (k : Nat) : (Gen.advance g k).n = g.n := rfl
@[simp] theorem Gen.advance_ctr (g : Gen) (k : Nat) : (Gen.advance g k).ctr = g.ctr := rfl
@[simp] theorem Gen.advance_cursor (g : Gen) (k : Nat) : (Gen.advance g k).cursor = BitVec.ofNat 64 (g.cursor.toNat + k) := rfl
@[simp] theorem Gen.advance_buf (g : Gen) (k : Nat) : (Gen.advance g k).buf = g.buf := rfl

/-! ### Gen.rekey -/

@[simp] theorem Gen.rekey_rk (g : Gen) (key : Block) : (Gen.rekey g key).rk = keySchedule key := rfl
@[simp] theorem Gen.rekey_n (g : Gen) (key : Block) : (Gen.rekey g key).n = g.n := rfl
@[simp] theorem Gen.rekey_ctr (g : Gen) (key : Block) : (Gen.rekey g key).ctr = 0#64 := rfl
@[simp] theorem Gen.rekey_cursor (g : Gen) (key : Block) : (Gen.rekey g key).cursor = g.cursor := rfl
@[simp] theorem Gen.rekey_buf (g : Gen) (key : Block) : (Gen.rekey g key).buf = g.buf := rfl

end Sys2Proof.Machine
end

