-- ==== Sys2Proof/Laws/Keystream.lean ====
section
/-! SUPPORT. The refill and the consumption of bytes: what each keeps, how long its output is, where it leaves the cursor
(R162, R165). -/

namespace Sys2Proof.Machine

/-- The bytes of a counter range are keystream bytes from index `16 * base` on (R138, R161). -/
theorem encryptCounterRange_bytes (rk : RoundKeys) (base : Word) (n : Nat) :
    (encryptCounterRange rk base n).flatMap blockBytes =
      (List.range (16 * n)).map fun j => ksByte rk (16 * base.toNat + j) := by
  apply List.ext_getElem?
  intro j
  rw [flatMap_blockBytes_getElem?]
  by_cases h : j < 16 * n
  · have hd : (16 * base.toNat + j) / 16 = base.toNat + j / 16 := by omega
    have hf : Fin.ofNat 16 (16 * base.toNat + j) = Fin.ofNat 16 j := by ext; simp only [Fin.val_ofNat]; omega
    have hb : BitVec.ofNat 64 (base.toNat + j / 16) = base + BitVec.ofNat 64 (j / 16) := by
      rw [BitVec.ofNat_add, BitVec.ofNat_toNat, BitVec.setWidth_eq]
    rw [encryptCounterRange_getElem? _ _ _ _ (by omega)]
    simp only [Option.map_some, List.getElem?_map, List.getElem?_range h, ksByte, hd, hf, hb]
  · have h1 : (encryptCounterRange rk base n)[j / 16]? = none :=
      List.getElem?_eq_none (by rw [encryptCounterRange_length]; omega)
    rw [h1, List.getElem?_eq_none (by simp; omega)]
    rfl

theorem Gen.refill_of_unseeded {g : Gen} (h : g.n = 0#64) : Gen.refill g = (g, .notSeeded) := by
  unfold Gen.refill; rw [if_pos h]

/-- R162 for a Ready generator. -/
theorem Gen.refill_of_ready {g : Gen} (h : g.n ≠ 0#64) :
    Gen.refill g =
      ({ g with
          buf := (List.range (Gen.capacity g)).map fun j => ksByte g.rk (16 * g.ctr.toNat + j)
          ctr := g.ctr + g.n
          cursor := 0#64 }, .ok) := by
  unfold Gen.refill
  rw [if_neg h, encryptCounterRange_bytes]
  rfl

@[simp] theorem Gen.refill_n (g : Gen) : (Gen.refill g).1.n = g.n := by unfold Gen.refill; split <;> rfl
@[simp] theorem Gen.refill_rk (g : Gen) : (Gen.refill g).1.rk = g.rk := by unfold Gen.refill; split <;> rfl

@[simp] theorem Gen.refillIfExhausted_n (g : Gen) : (Gen.refillIfExhausted g).n = g.n := by
  unfold Gen.refillIfExhausted; split <;> simp
@[simp] theorem Gen.refillIfExhausted_rk (g : Gen) : (Gen.refillIfExhausted g).rk = g.rk := by
  unfold Gen.refillIfExhausted; split <;> simp

@[simp] theorem Gen.slice_length (g : Gen) (off n : Nat) : (Gen.slice g off n).length = n := by simp [Gen.slice]

theorem Gen.capacity_pos {g : Gen} (h : g.n ≠ 0#64) : 16 ≤ Gen.capacity g := by
  have : g.n.toNat ≠ 0 := fun h' => h (BitVec.eq_of_toNat_eq h')
  unfold Gen.capacity
  omega

/-- A Ready generator is never left exhausted by `if cursor = 16*N: Refill()` (R165). -/
theorem Gen.not_exhausted_refillIfExhausted {g : Gen} (h : g.n ≠ 0#64) :
    Gen.exhausted (Gen.refillIfExhausted g) = false := by
  unfold Gen.refillIfExhausted
  split
  · have := Gen.capacity_pos h
    rw [Gen.refill_of_ready h]
    simp only [Gen.exhausted, Gen.capacity] at *
    simpa using by omega
  · simp_all

@[simp] theorem Gen.consumeLoop_n (fuel rem : Nat) (g : Gen) : (Gen.consumeLoop fuel rem g).2.n = g.n := by
  induction fuel generalizing rem g with
  | zero => rfl
  | succ fuel ih => simp only [Gen.consumeLoop]; split <;> simp [ih]

@[simp] theorem Gen.consumeLoop_rk (fuel rem : Nat) (g : Gen) : (Gen.consumeLoop fuel rem g).2.rk = g.rk := by
  induction fuel generalizing rem g with
  | zero => rfl
  | succ fuel ih => simp only [Gen.consumeLoop]; split <;> simp [ih]

/-- With an iteration for each byte left, and one more for a refill that must come first, the loop hands out every byte
asked for and leaves the generator not exhausted (R165). -/
theorem Gen.consumeLoop_finishes {fuel rem : Nat} {g : Gen} (h : g.n ≠ 0#64) (hf : 0 < fuel)
    (hr : rem + (if Gen.exhausted g then 1 else 0) ≤ fuel) :
    (Gen.consumeLoop fuel rem g).1.length = rem ∧ Gen.exhausted (Gen.consumeLoop fuel rem g).2 = false := by
  induction fuel generalizing rem g with
  | zero => omega
  | succ fuel ih =>
    have hne : Gen.exhausted (Gen.refillIfExhausted (Gen.advance g (Gen.chunk g rem))) = false :=
      Gen.not_exhausted_refillIfExhausted (by simpa using h)
    have hle : Gen.chunk g rem ≤ rem := by unfold Gen.chunk; omega
    have hstep : Gen.chunk g rem = 0 → 0 < rem → Gen.exhausted g = true := by
      unfold Gen.chunk Gen.exhausted; intro h1 h2; simp only [decide_eq_true_eq]; omega
    simp only [Gen.consumeLoop]
    split
    · next h0 => exact ⟨by simp; omega, hne⟩
    · next h0 =>
      have hr' : rem - Gen.chunk g rem ≤ fuel := by
        by_cases hz : Gen.chunk g rem = 0
        · rw [hstep hz (by omega)] at hr; simp only [if_true] at hr; omega
        · split at hr <;> omega
      obtain ⟨h1, h2⟩ := ih (rem := rem - Gen.chunk g rem)
        (g := Gen.refillIfExhausted (Gen.advance g (Gen.chunk g rem))) (by simpa using h) (by omega)
        (by rw [hne]; simpa using hr')
      exact ⟨by simp only [List.length_append, h1, Gen.slice_length]; omega, h2⟩

/-- `Consume(L)` of a Ready generator hands out `L` bytes. -/
theorem Gen.consume_length {g : Gen} (h : g.n ≠ 0#64) (len : Nat) : (Gen.consume g len).1.length = len :=
  (Gen.consumeLoop_finishes h (by omega) (by split <;> omega)).1

/-- `Consume(L)` leaves the cursor below `16*N` (R166, last point). -/
theorem Gen.consume_not_exhausted {g : Gen} (h : g.n ≠ 0#64) (len : Nat) :
    Gen.exhausted (Gen.consume g len).2 = false :=
  (Gen.consumeLoop_finishes h (by omega) (by split <;> omega)).2

@[simp] theorem Gen.consume_n (g : Gen) (len : Nat) : (Gen.consume g len).2.n = g.n := Gen.consumeLoop_n _ _ g
@[simp] theorem Gen.consume_rk (g : Gen) (len : Nat) : (Gen.consume g len).2.rk = g.rk := Gen.consumeLoop_rk _ _ g

/-- Keystream bytes repeat with period `16 * 2^64`, for the counter wraps (R161, R137). -/
theorem ksByte_congr {rk : RoundKeys} {a b : Nat} (h : a % 2 ^ 68 = b % 2 ^ 68) : ksByte rk a = ksByte rk b := by
  have h1 : BitVec.ofNat 64 (a / 16) = BitVec.ofNat 64 (b / 16) := by
    apply BitVec.eq_of_toNat_eq
    simp only [BitVec.toNat_ofNat]
    omega
  have h2 : Fin.ofNat 16 a = Fin.ofNat 16 b := by ext; simp only [Fin.val_ofNat]; omega
  simp only [ksByte, h1, h2]

/-- A slice of live bytes of a buffer that holds the keystream (R164). -/
theorem Gen.slice_eq_keystream {g : Gen}
    (hb : g.buf = (List.range (Gen.capacity g)).map fun j => ksByte g.rk (Gen.bufBase g + j))
    {off n : Nat} (h : off + n ≤ Gen.capacity g) :
    Gen.slice g off n = (List.range n).map fun i => ksByte g.rk (Gen.bufBase g + off + i) := by
  unfold Gen.slice
  apply List.map_congr_left
  intro i hi
  have hi := List.mem_range.1 hi
  unfold Gen.byteAt
  rw [hb, List.getElem?_map, List.getElem?_range (by omega)]
  simp [Nat.add_assoc]

/-- A refill of a Ready generator makes the buffer hold the keystream (R38 point 3). -/
theorem Gen.refill_buf_eq_keystream {g : Gen} (h : g.n ≠ 0#64) :
    (Gen.refill g).1.buf =
      (List.range (Gen.capacity (Gen.refill g).1)).map fun j =>
        ksByte (Gen.refill g).1.rk (Gen.bufBase (Gen.refill g).1 + j) := by
  rw [Gen.refill_of_ready h]
  simp only [Gen.capacity, Gen.bufBase, BitVec.add_sub_cancel]

end Sys2Proof.Machine
end

