-- ==== Sys2Proof/Laws/Memory.lean ====
section
/-! SUPPORT. Host memory: what a byte reads as after a write, and that every operation keeps the canonical form. -/

namespace Sys2Proof.Machine

@[simp] theorem Memory.get?_nil (a : Nat) : Memory.get? [] a = none := rfl

theorem Memory.get?_cons (c : Host.Cell) (m : Memory) (a : Nat) :
    Memory.get? (c :: m) a = if c.1 = a then some c.2 else Memory.get? m a := rfl

/-- The byte written reads back, and every other byte reads as before. -/
theorem Memory.get?_set (m : Memory) (a b : Nat) (v : Byte) :
    Memory.get? (Memory.set m a v) b = if b = a then some v else Memory.get? m b := by
  induction m with
  | nil => simp only [Memory.set, Memory.get?_cons, Memory.get?_nil, eq_comm]
  | cons c m ih =>
    simp only [Memory.set]
    split
    · simp only [Memory.get?_cons, eq_comm (a := b)]
    · split
      · next h => subst h; simp only [Memory.get?_cons, eq_comm (a := b)]; split <;> simp_all
      · next h =>
        simp only [Memory.get?_cons, ih]
        split
        · next h' => subst h'; rw [if_neg (fun h'' => h h''.symm)]
        · rfl

/-- The addresses a write lists: the new one and the old ones. -/
theorem Memory.mem_set {m : Memory} {a : Nat} {v : Byte} {c : Host.Cell} (h : c ∈ Memory.set m a v) :
    c = (a, v) ∨ c ∈ m := by
  induction m with
  | nil => simpa [Memory.set] using h
  | cons d m ih =>
    simp only [Memory.set] at h
    split at h
    · simpa using h
    · split at h
      · rcases List.mem_cons.1 h with h | h
        · exact .inl h
        · exact .inr (List.mem_cons_of_mem _ h)
      · rcases List.mem_cons.1 h with h | h
        · exact .inr (h ▸ List.mem_cons_self)
        · exact (ih h).imp_right (List.mem_cons_of_mem _)

/-- A write keeps the canonical form. -/
theorem Memory.wf_set {m : Memory} (h : Memory.wf m) (a : Nat) (v : Byte) : Memory.wf (Memory.set m a v) := by
  induction m with
  | nil => simp [Memory.set]
  | cons d m ih =>
    obtain ⟨hd, hm⟩ := List.pairwise_cons.1 h
    simp only [Memory.set]
    split
    · next ha =>
      refine List.pairwise_cons.2 ⟨fun c hc => ?_, h⟩
      rcases List.mem_cons.1 hc with rfl | hc
      · exact ha
      · exact ha.trans (hd c hc)
    · split
      · next ha => exact List.pairwise_cons.2 ⟨fun c hc => by have := hd c hc; simp_all, hm⟩
      · next ha hne =>
        refine List.pairwise_cons.2 ⟨fun c hc => ?_, ih hm⟩
        rcases Memory.mem_set hc with rfl | hc
        · simp only; omega
        · exact hd c hc

/-- A run of bytes keeps the canonical form. -/
theorem Memory.wf_writeBytes {m : Memory} (h : Memory.wf m) (a : Nat) (bs : List Byte) :
    Memory.wf (Memory.writeBytes m a bs) := by
  induction bs generalizing m a with
  | nil => exact h
  | cons b bs ih => exact ih (Memory.wf_set h a b) (a + 1)

/-- The addresses a run of bytes lists: those it writes and the old ones. -/
theorem Memory.mem_writeBytes {m : Memory} {a : Nat} {bs : List Byte} {c : Host.Cell}
    (h : c ∈ Memory.writeBytes m a bs) : (a ≤ c.1 ∧ c.1 < a + bs.length) ∨ c ∈ m := by
  induction bs generalizing m a with
  | nil => exact .inr h
  | cons b bs ih =>
    rcases ih h with h | h
    · left; simp only [List.length_cons]; omega
    · rcases Memory.mem_set h with rfl | h
      · left; simp
      · exact .inr h

/-- What each byte reads as after a run of bytes is written (R51, R54). -/
theorem Memory.get?_writeBytes (m : Memory) (a : Nat) (bs : List Byte) (x : Nat) :
    Memory.get? (Memory.writeBytes m a bs) x =
      if a ≤ x ∧ x < a + bs.length then bs[x - a]? else Memory.get? m x := by
  induction bs generalizing m a with
  | nil => simp only [Memory.writeBytes, List.length_nil, Nat.add_zero]; rw [if_neg (by omega)]
  | cons b bs ih =>
    simp only [Memory.writeBytes, ih, Memory.get?_set, List.length_cons]
    by_cases hx : x = a
    · subst hx; simp
    · by_cases hlt : a + 1 ≤ x
      · have e : x - a = (x - (a + 1)) + 1 := by omega
        simp only [hx, if_false, e, List.getElem?_cons_succ]
        split <;> split <;> first | rfl | omega
      · simp only [if_neg hx]; rw [if_neg (by omega), if_neg (by omega)]

/-- Outside the written range every byte reads as before. -/
theorem Memory.get?_writeBytes_of_outside {m : Memory} {a x : Nat} {bs : List Byte}
    (h : x < a ∨ a + bs.length ≤ x) : Memory.get? (Memory.writeBytes m a bs) x = Memory.get? m x := by
  rw [Memory.get?_writeBytes, if_neg (by omega)]

/-- Inside the written range byte `i` reads as written. -/
theorem Memory.get?_writeBytes_of_lt {m : Memory} {a i : Nat} {bs : List Byte} (h : i < bs.length) :
    Memory.get? (Memory.writeBytes m a bs) (a + i) = some bs[i] := by
  rw [Memory.get?_writeBytes, if_pos (by omega), Nat.add_sub_cancel_left, List.getElem?_eq_getElem h]

/-- The whole footprint's check says exactly when a DMA write is let through (R54, R209). -/
theorem Params.dmaFault_eq_none {p : Params} {a n : Nat} :
    Params.dmaFault p a n = none ↔ n = 0 ∨ (a + n ≤ 2 ^ p.addrW ∧ Params.admits p a n = true) := by
  unfold Params.dmaFault
  split
  · simp_all
  · split
    · simp_all
    · split <;> simp_all

/-- A footprint that passes the check lies below `2^ADDR_W`. -/
theorem Params.lt_of_dmaFault_eq_none {p : Params} {a n x : Nat} (h : Params.dmaFault p a n = none)
    (hx : a ≤ x ∧ x < a + n) : x < 2 ^ p.addrW := by
  rcases Params.dmaFault_eq_none.1 h with h | h <;> omega

end Sys2Proof.Machine
end

