-- ==== Sys2Proof/Laws/Exec.lean ====
section
/-! SUPPORT. For each meaning, what it can answer: if a next state, then which, and when a fault. -/

namespace Sys2Proof.Machine

/-- Two next outcomes are equal when their states are. -/
theorem next_eq_next {a b : State} :
    (Host.Outcome.next a : Host.Outcome State Fault Refusal) = .next b ↔ b = a := by
  constructor
  · intro h; cases h; rfl
  · rintro rfl; rfl

/-- R163: the gate's two outcomes. -/
theorem seededGate_eq_next {s t : State} {r : Host.Outcome State Fault Refusal} :
    seededGate s r = .next t ↔
      (s.gen.n = 0#64 ∧ t = State.finish s .notSeeded) ∨ (s.gen.n ≠ 0#64 ∧ r = .next t) := by
  unfold seededGate
  split
  · next h => simp only [h, next_eq_next, true_and, ne_eq, not_true_eq_false, false_and, or_false]
  · next h => simp only [h, false_and, ne_eq, not_false_eq_true, true_and, false_or]

theorem seededGate_of_unseeded {s : State} (h : s.gen.n = 0#64) (r : Host.Outcome State Fault Refusal) :
    seededGate s r = .next (State.finish s .notSeeded) := by unfold seededGate; rw [if_pos h]

theorem seededGate_of_ready {s : State} (h : s.gen.n ≠ 0#64) (r : Host.Outcome State Fault Refusal) :
    seededGate s r = r := by unfold seededGate; rw [if_neg h]

/-- The state after the bytes of `Consume(A)`, each changed by `f`, have gone to host memory (R171, R173). -/
def gotToMemory (s : State) (f : Byte → Byte) : State :=
  State.finish (State.dmaWrite { s with gen := (Gen.consume s.gen (State.opA s)).2 } (State.dst s)
    ((Gen.consume s.gen (State.opA s)).1.map f)) .ok

theorem getToMemory_eq_next {s t : State} {f : Byte → Byte} :
    getToMemory s f = .next t ↔
      (s.gen.n = 0#64 ∧ t = State.finish s .notSeeded) ∨
      (s.gen.n ≠ 0#64 ∧ Params.dmaFault s.params (State.dst s) (State.opA s) = none ∧ t = gotToMemory s f) := by
  unfold getToMemory
  rw [seededGate_eq_next]
  cases h : Params.dmaFault s.params (State.dst s) (State.opA s) with
  | some k => simp
  | none => simp only [next_eq_next, gotToMemory, true_and]

theorem getToMemory_of_dmaFault {s : State} {k : Fault} (f : Byte → Byte) (h : s.gen.n ≠ 0#64)
    (hk : Params.dmaFault s.params (State.dst s) (State.opA s) = some k) : getToMemory s f = .fault k := by
  unfold getToMemory
  rw [seededGate_of_ready h, hk]

theorem execEngKey_eq_next {s t : State} :
    execEngKey s = .next t ↔ t = State.finish { s with engRk := keySchedule (State.blk s) } .ok := by
  rw [execEngKey, next_eq_next]

theorem execEngEnc_eq_next {s t : State} :
    execEngEnc s = .next t ↔
      t = State.finish (State.setRes s (extractLane64 (encrypt s.engRk (State.blk s)) 0)
        (extractLane64 (encrypt s.engRk (State.blk s)) 1)) .ok := by
  rw [execEngEnc, next_eq_next]

theorem execEngCtr_eq_next {s t : State} :
    execEngCtr s = .next t ↔
      Params.dmaFault s.params (State.dst s) (16 * State.opB s) = none ∧
        t = State.finish (State.dmaWrite s (State.dst s) (engCtrBytes s)) .ok := by
  unfold execEngCtr
  cases h : Params.dmaFault s.params (State.dst s) (16 * State.opB s) with
  | some k => simp
  | none => simp only [next_eq_next, true_and]

@[simp] theorem engCtrBytes_length (s : State) : (engCtrBytes s).length = 16 * State.opB s := by
  rw [engCtrBytes, flatMap_blockBytes_length, encryptCounterRange_length]

/-- The generator that GEN.SEED refills (R170). -/
def seedTarget (s : State) : Gen := Gen.sizeIfUnsized (Gen.rekey s.gen (State.blk s)) (State.operands s).argA

@[simp] theorem Gen.sizeIfUnsized_rk (g : Gen) (a : Word) : (Gen.sizeIfUnsized g a).rk = g.rk := by
  unfold Gen.sizeIfUnsized; split <;> rfl
@[simp] theorem Gen.sizeIfUnsized_ctr (g : Gen) (a : Word) : (Gen.sizeIfUnsized g a).ctr = g.ctr := by
  unfold Gen.sizeIfUnsized; split <;> rfl
@[simp] theorem Gen.sizeIfUnsized_cursor (g : Gen) (a : Word) : (Gen.sizeIfUnsized g a).cursor = g.cursor := by
  unfold Gen.sizeIfUnsized; split <;> rfl
@[simp] theorem Gen.sizeIfUnsized_buf (g : Gen) (a : Word) : (Gen.sizeIfUnsized g a).buf = g.buf := by
  unfold Gen.sizeIfUnsized; split <;> rfl
theorem Gen.sizeIfUnsized_n (g : Gen) (a : Word) :
    (Gen.sizeIfUnsized g a).n = if g.n = 0#64 then a else g.n := by
  unfold Gen.sizeIfUnsized; split <;> rfl

theorem execGenSeed_eq_next {s t : State} :
    execGenSeed s = .next t ↔
      ((s.gen.n = 0#64 ∧ s.params.nmax < State.opA s) ∧ t = State.finish s .badSize) ∨
      (¬(s.gen.n = 0#64 ∧ s.params.nmax < State.opA s) ∧
        t = State.finish { s with gen := (Gen.refill (seedTarget s)).1 } (Gen.refill (seedTarget s)).2) := by
  unfold execGenSeed seedTarget
  split
  · next h => simp only [h, next_eq_next, true_and, not_true_eq_false, false_and, or_false, and_self]
  · next h => simp only [h, next_eq_next, false_and, false_or, not_false_eq_true, true_and]

theorem execGenGetval_eq_next {sz : BitVec 3} {s t : State} :
    execGenGetval sz s = .next t ↔
      (4#3 < sz ∧ t = State.finishIllegal s) ∨
      (¬4#3 < sz ∧ s.gen.n = 0#64 ∧ t = State.finish s .notSeeded) ∨
      (¬4#3 < sz ∧ s.gen.n ≠ 0#64 ∧
        t = State.finish (State.setRes { s with gen := (Gen.consume s.gen (valueWidth sz)).2 }
          (valueLo (Gen.consume s.gen (valueWidth sz)).1) (valueHi (Gen.consume s.gen (valueWidth sz)).1)) .ok) := by
  unfold execGenGetval
  split
  · next h => simp only [h, next_eq_next, true_and, not_true_eq_false, false_and, or_false]
  · next h => rw [seededGate_eq_next]; simp only [h, next_eq_next, false_and, false_or, not_false_eq_true, true_and]

theorem execGenGetbit_eq_next {s t : State} :
    execGenGetbit s = .next t ↔
      (s.gen.n = 0#64 ∧ t = State.finish s .notSeeded) ∨
      (s.gen.n ≠ 0#64 ∧
        t = State.finish (State.setRes { s with gen := (Gen.consume s.gen 1).2 }
          (valueLo ((Gen.consume s.gen 1).1.map boolByte)) 0#64) .ok) := by
  unfold execGenGetbit
  rw [seededGate_eq_next, next_eq_next]

/-- The state after GEN.VIEW of a Ready generator (R175). -/
def viewed (s : State) : State :=
  State.finish
    { s with
      viewOff := (Gen.refillIfExhausted s.gen).cursor
      viewLen := BitVec.ofNat 64 (Gen.chunk (Gen.refillIfExhausted s.gen) (State.opA s))
      status := Status.withView s.status
      gen := Gen.advance (Gen.refillIfExhausted s.gen) (Gen.chunk (Gen.refillIfExhausted s.gen) (State.opA s)) } .ok

theorem execGenView_eq_next {s t : State} :
    execGenView s = .next t ↔
      (s.gen.n = 0#64 ∧ t = State.finish s .notSeeded) ∨ (s.gen.n ≠ 0#64 ∧ t = viewed s) := by
  unfold execGenView viewed
  rw [seededGate_eq_next, next_eq_next]

theorem execGenGetseed_eq_next {s t : State} :
    execGenGetseed s = .next t ↔
      (s.gen.n = 0#64 ∧ t = State.finish s .notSeeded) ∨
      (s.gen.n ≠ 0#64 ∧
        t = State.finish (State.setRes s (extractLane64 s.gen.rk[0] 0) (extractLane64 s.gen.rk[0] 1)) .ok) := by
  unfold execGenGetseed
  rw [seededGate_eq_next, next_eq_next]

theorem execGenRelease_eq_next {s t : State} :
    execGenRelease s = .next t ↔
      t = State.finish
        { s with gen := { rk := keySchedule zeroBlock, n := 0#64, ctr := 0#64, cursor := 0#64, buf := [] } } .ok := by
  rw [execGenRelease, next_eq_next]

/-- What every command that answers a next state does beside its own effect: it ends (R201), and it leaves the
parameters, the operand registers, the fault mark and the host's side as they were (R21, R207). -/
structure Ended (s t : State) : Prop where
  pend : t.pend = none
  busy : t.status.busy = false
  seeded : t.status.seeded = decide (t.gen.n ≠ 0#64)
  params : t.params = s.params
  args : t.args = s.args
  fault : t.fault = s.fault
  events : t.events = s.events
  hostData : t.hostData = s.hostData
  draws : t.draws = s.draws

/-- A command that ends by `finish` on a state that differs from `s` only in what commands write. -/
theorem Ended.of_finish {s u : State} (code : ErrCode) (h1 : u.params = s.params) (h2 : u.args = s.args)
    (h3 : u.fault = s.fault) (h4 : u.events = s.events) (h5 : u.hostData = s.hostData) (h6 : u.draws = s.draws) :
    Ended s (State.finish u code) :=
  ⟨rfl, rfl, rfl, h1, h2, h3, h4, h5, h6⟩

theorem exec_ended {i : Instr} {s t : State} (h : exec i s = .next t) : Ended s t := by
  cases i with
  | engKey => rw [execEngKey_eq_next.1 h]; exact .of_finish _ rfl rfl rfl rfl rfl rfl
  | engEnc => rw [execEngEnc_eq_next.1 h]; exact .of_finish _ rfl rfl rfl rfl rfl rfl
  | engCtr => rw [(execEngCtr_eq_next.1 h).2]; exact .of_finish _ rfl rfl rfl rfl rfl rfl
  | genSeed =>
    rcases execGenSeed_eq_next.1 h with ⟨-, rfl⟩ | ⟨-, rfl⟩ <;> exact .of_finish _ rfl rfl rfl rfl rfl rfl
  | genGetbytes =>
    rcases getToMemory_eq_next.1 h with ⟨-, rfl⟩ | ⟨-, -, rfl⟩ <;> exact .of_finish _ rfl rfl rfl rfl rfl rfl
  | genGetval sz =>
    rcases execGenGetval_eq_next.1 h with ⟨-, rfl⟩ | ⟨-, -, rfl⟩ | ⟨-, -, rfl⟩ <;>
      exact .of_finish _ rfl rfl rfl rfl rfl rfl
  | genGetbools =>
    rcases getToMemory_eq_next.1 h with ⟨-, rfl⟩ | ⟨-, -, rfl⟩ <;> exact .of_finish _ rfl rfl rfl rfl rfl rfl
  | genGetbit =>
    rcases execGenGetbit_eq_next.1 h with ⟨-, rfl⟩ | ⟨-, rfl⟩ <;> exact .of_finish _ rfl rfl rfl rfl rfl rfl
  | genView =>
    rcases execGenView_eq_next.1 h with ⟨-, rfl⟩ | ⟨-, rfl⟩ <;> exact .of_finish _ rfl rfl rfl rfl rfl rfl
  | genGetseed =>
    rcases execGenGetseed_eq_next.1 h with ⟨-, rfl⟩ | ⟨-, rfl⟩ <;> exact .of_finish _ rfl rfl rfl rfl rfl rfl
  | genRelease => rw [execGenRelease_eq_next.1 h]; exact .of_finish _ rfl rfl rfl rfl rfl rfl

end Sys2Proof.Machine
end

