-- ==== Sys2Proof/Laws/Step.lean ====
section
/-! SUPPORT. What one step can do: which agent moves, and what each move answers. -/

namespace Sys2Proof.Machine

/-- The ENGINE's turn that answers a next state: nothing to do, the pending command, or an illegal word (R240, R81). -/
theorem engineTurn_eq_next {s t : State} :
    engineTurn s = .next t ↔
      ((s.status.busy = false ∨ s.pend = none) ∧ t = s) ∨
      (s.status.busy = true ∧ ∃ p, s.pend = some p ∧ Pend.instr? p = none ∧ t = State.finishIllegal s) ∨
      (s.status.busy = true ∧ ∃ p i, s.pend = some p ∧ Pend.instr? p = some i ∧ exec i s = .next t) := by
  unfold engineTurn
  cases hb : s.status.busy with
  | false => simpa using eq_comm
  | true =>
    cases hp : s.pend with
    | none => simpa using eq_comm
    | some p =>
      cases hi : Pend.instr? p with
      | none => simpa [hi] using eq_comm
      | some i => simp [hi]

/-- A step that answers a next state is taken in a state with no fault marked, by the agent that the events name. -/
theorem step_eq_next {s t : State} :
    step s = .next t ↔
      s.fault = none ∧
        ((s.events = [] ∧ engineTurn s = .next t) ∨
          ∃ e es, s.events = e :: es ∧ performEvent e { s with events := es } = .next t) := by
  unfold step
  cases hf : s.fault with
  | some f => simp
  | none =>
    cases he : s.events with
    | nil => simp
    | cons e es => simp

/-- A register read that answers a next state changes only what the host read, and the draws (R60, R75). -/
theorem readReg_next {s t : State} {r : Reg} (h : State.readReg s r = .next t) :
    ∃ bs d, t = { s with hostData := bs, draws := d } := by
  unfold State.readReg at h
  split at h
  · cases h
  · split at h
    · cases h; exact ⟨_, _, rfl⟩
    · split at h <;> cases h <;> exact ⟨_, _, rfl⟩

/-- A host read that answers a next state changes only what the host read, and the draws (R60). -/
theorem hostRead_next {s t : State} {a n : Nat} (h : State.hostRead s a n = .next t) :
    ∃ bs d, t = { s with hostData := bs, draws := d } := by
  unfold State.hostRead at h
  split at h
  · cases h
  · split at h
    · cases h
    · split at h
      · exact readReg_next h
      · cases h
  · unfold State.readWindow at h
    split at h
    · cases h
    · split at h
      · cases h
      · split at h
        · cases h
        · split at h
          · cases h
          · cases h; exact ⟨_, _, rfl⟩
  · split at h
    · cases h
    · cases h; exact ⟨_, _, rfl⟩

/-- A register write that answers a next state was made with BUSY = 0: it issued a command or wrote one operand
register (R74, R78). -/
theorem writeReg_next {s t : State} {r : Reg} {v : Word} (h : State.writeReg s r v = .next t) :
    s.status.busy = false ∧ ((r = .cmd ∧ t = State.issue s v) ∨ ∃ o, OperandRegs.put s.args v r = some o ∧ t = { s with args := o }) := by
  unfold State.writeReg at h
  split at h
  · split at h
    · cases h
    · next hb => cases h; exact ⟨by simpa using hb, .inl ⟨rfl, rfl⟩⟩
  · split at h
    · cases h
    · next hb => cases h; exact ⟨by simpa using hb, .inr ⟨_, by assumption, rfl⟩⟩
  · cases h

/-- The register map read both ways (R70). -/
theorem regAt_eq_some {off : Nat} {r : Reg} : regAt off = some r ↔ off = regOffset r := by
  constructor
  · intro h
    have hr : (regOffset r == off) = true := List.find?_some (p := fun r => regOffset r == off) h
    exact (beq_iff_eq.1 hr).symm
  · rintro rfl
    cases r <;> rfl

/-- A host write that answers a next state: a command issued at BASE, an operand register, or host memory. -/
theorem hostWrite_next {s t : State} {a : Nat} {bs : List Byte} (h : State.hostWrite s a bs = .next t) :
    (s.status.busy = false ∧ a = s.params.base ∧ bs.length = 8 ∧ t = State.issue s (wordOfBytes bs)) ∨
    (s.status.busy = false ∧ ∃ o, t = { s with args := o }) ∨
    (State.memFault s a bs.length = none ∧ t = { s with mem := Memory.writeBytes s.mem a bs }) := by
  unfold State.hostWrite at h
  split at h
  · cases h
  · next off ht =>
    split at h
    · cases h
    · next r hr =>
      split at h
      · next hl =>
        obtain ⟨hb, ⟨rfl, rfl⟩ | ⟨o, -, rfl⟩⟩ := writeReg_next h
        · refine .inl ⟨hb, ?_, hl, rfl⟩
          have h0 : off = 0 := regAt_eq_some.1 hr
          subst h0
          unfold Params.target at ht
          split at ht
          · cases ht
          · split at ht
            · cases ht
            · split at ht
              · simp only [Target.regs.injEq] at ht; omega
              · cases ht
        · exact .inr (.inl ⟨hb, o, rfl⟩)
      · cases h
  · cases h
  · split at h
    · cases h
    · next hm => cases h; exact .inr (.inr ⟨hm, rfl⟩)

end Sys2Proof.Machine
end

