-- ==== Sys2Proof/Laws/Invariant.lean ====
section
/-! SUPPORT. The parts of the invariant that single operations establish: a schedule, a refilled buffer, a written
memory. -/

namespace Sys2Proof.Machine

/-- R132: `RK[0]` of a schedule is the key. -/
@[simp] theorem keySchedule_zero (key : Block) : (keySchedule key)[0] = key := rfl

theorem scheduled_keySchedule (key : Block) : scheduled (keySchedule key) := rfl

/-- A refill of a Ready generator establishes its invariant (R162, R38). -/
theorem Gen.inv_refill {nmax : Nat} {g : Gen} (hn : g.n ≠ 0#64) (hle : g.n.toNat ≤ nmax) (hrk : scheduled g.rk) :
    Gen.inv nmax (Gen.refill g).1 := by
  refine ⟨by simpa using hle, fun h => absurd (by simpa using h) hn, ?_, by simpa using hrk,
    Gen.refill_buf_eq_keystream hn⟩
  rw [Gen.refill_of_ready hn]
  simp

/-- An Unseeded generator with nothing live meets its invariant, whatever its key. -/
theorem Gen.inv_unseeded (nmax : Nat) (key : Block) :
    Gen.inv nmax { rk := keySchedule key, n := 0#64, ctr := 0#64, cursor := 0#64, buf := [] } := by
  refine ⟨by simp, fun _ => ⟨rfl, rfl⟩, by simp, rfl, by simp [Gen.capacity]⟩

/-- Bytes written below `2^ADDR_W` keep memory's invariant. -/
theorem Memory.inv_writeBytes {w a : Nat} {m : Memory} {bs : List Byte} (h : Memory.inv w m)
    (hb : bs = [] ∨ a + bs.length ≤ 2 ^ w) : Memory.inv w (Memory.writeBytes m a bs) := by
  refine ⟨Memory.wf_writeBytes h.1 a bs, fun c hc => ?_⟩
  rcases Memory.mem_writeBytes hc with hc | hc
  · rcases hb with rfl | hb
    · simp at hc; omega
    · omega
  · exact h.2 c hc

end Sys2Proof.Machine
end

