-- ==== Sys2Proof/Laws/PerInstr.lean ====
section
/-! SUPPORT. The statements made command by command. Family Legal: the word of a well-formed command is a legal word,
with its reserved bits zero (R76, R77). -/

namespace Sys2Proof.Laws

/-- R76, R77: the word of a well-formed command is legal, its fields are the command's, and its reserved bits are zero. -/
def Legal.Statement (i : Instr) : Prop :=
  i.wellFormed = true →
    legalWord (encode i) = true ∧ cmdRsv (encode i) = 0#53 ∧ cmdOp (encode i) = opOf i ∧ cmdSz (encode i) = szOf i

theorem Legal.engKey : Legal.Statement .engKey := fun _ => by decide

theorem Legal.engEnc : Legal.Statement .engEnc := fun _ => by decide

theorem Legal.engCtr : Legal.Statement .engCtr := fun _ => by decide

theorem Legal.genSeed : Legal.Statement .genSeed := fun _ => by decide

theorem Legal.genGetbytes : Legal.Statement .genGetbytes := fun _ => by decide

theorem Legal.genGetval (sz : BitVec 3) : Legal.Statement (.genGetval sz) := by
  revert sz; unfold Legal.Statement; decide

theorem Legal.genGetbools : Legal.Statement .genGetbools := fun _ => by decide

theorem Legal.genGetbit : Legal.Statement .genGetbit := fun _ => by decide

theorem Legal.genView : Legal.Statement .genView := fun _ => by decide

theorem Legal.genGetseed : Legal.Statement .genGetseed := fun _ => by decide

theorem Legal.genRelease : Legal.Statement .genRelease := fun _ => by decide

end Sys2Proof.Laws
end

