-- ==== Sys2Proof/Laws/Run.lean ====
section
/-! SUPPORT. A run, step by step. -/

namespace Sys2Proof.Machine

/-- On any machine, a run whose first step answers a next state goes on from there. -/
theorem Run.succ_of_next (M : Host.Core) (k : Nat) (s t : M.State) (h : M.step s = .next t) :
    M.run (k + 1) s = M.run k t := by simp only [Host.Core.run, h]

/-- On any machine, a run whose first step faults ends there. -/
theorem Run.succ_of_fault (M : Host.Core) (k : Nat) (s : M.State) (f : M.Fault) (h : M.step s = .fault f) :
    M.run (k + 1) s = .fault f := by simp only [Host.Core.run, h]

/-- Run.succ_of_next for this machine. -/
theorem run_of_next {k : Nat} {s t : State} (h : step s = .next t) :
    Host.Core.run Sys2Proof.core (k + 1) s = Host.Core.run Sys2Proof.core k t := Run.succ_of_next _ _ _ _ h

/-- Run.succ_of_fault for this machine. -/
theorem run_of_fault {k : Nat} {s : State} {f : Fault} (h : step s = .fault f) :
    Host.Core.run Sys2Proof.core (k + 1) s = .fault f := Run.succ_of_fault _ _ _ _ h

end Sys2Proof.Machine
end

