-- ==== Sys2Proof/Tests/Slice0.lean ====
section
/-! SUPPORT. The model's own tests: expected values come from spec/95_test_vectors.md, each named by its id there; and a
witness for every statement of Certificates/Slice0/Obligations.lean that has hypotheses. -/

open Sys2Proof Sys2Proof.Machine Sys2Proof.Claims

namespace Sys2Proof.Tests

-- One proof at a time: many kernel evaluations waiting for one another would each hold a thread's stack.
set_option Elab.async false

/-! ### Helpers -/

/-- A block written in the spec's hex, byte 0 first. -/
def hx (v : BitVec 128) : Block := blockOfBytes fun i => v.extractLsb' (8 * (15 - i.val)) 8

/-- The key K1 of the vectors, and its schedule. -/
def k1 : Block := fromHalves 0x100f0e0d0c0b0a09 0x0807060504030201

def rk1 : RoundKeys := keySchedule k1

/-- A small instance: four blocks, 2^20 addresses, the block at 0x10000, and `[0x9000, 0xA000)` denied beside it. -/
def params : Params := ⟨4, 20, 0x10000, [⟨0x10000, 0x1040⟩, ⟨0x9000, 0x1000⟩]⟩

def idle : State := State.resetWith params []

def ops (lo hi a b addr : Word) : OperandRegs := ⟨lo, hi, a, b, addr⟩

/-- Operands with the key K1. -/
def opsK1 (a : Word) : OperandRegs := ops 0x0807060504030201 0x100f0e0d0c0b0a09 a 0 0x8000

/-- The generator right after seed(K1, n) of the vectors. -/
def readyGen (n : Word) : Gen := (Gen.refill ⟨rk1, n, 0#64, 0#64, []⟩).1

def ready (n : Word) : State :=
  { idle with gen := readyGen n, status := { idle.status with seeded := true } }

/-- `s` with these operands and the word `c` issued. -/
def issued (s : State) (o : OperandRegs) (c : Word) : State := State.issue { s with args := o } c

/-- A part of the next state, if there is one. -/
def seen {α : Type} (o : Host.Outcome State Fault Refusal) (f : State → α) : Option α :=
  match o with
  | .next t => some (f t)
  | .fault _ => none
  | .refused _ => none

/-- The fault, if the outcome is one. -/
def faulted (o : Host.Outcome State Fault Refusal) : Option Fault :=
  match o with
  | .next _ => none
  | .fault k => some k
  | .refused _ => none

/-- Bytes of host memory. -/
def bytesAt (s : State) (a n : Nat) : List (Option Byte) := (List.range n).map fun i => Memory.get? s.mem (a + i)

/-- GEN.N, GEN.ctr, GEN.cursor and STATUS, the columns of the generator's vectors. -/
def columns (s : State) : Word × Word × Word × Word :=
  (s.gen.n, s.gen.ctr, s.gen.cursor, Status.toWord s.status)

/-! ### Well-formedness, decoding, encoding (R76, R77, R80) -/

theorem test_wellFormed_refuses_wide_getval :
    (Instr.genGetval 5).wellFormed = false ∧ (Instr.genGetval 7).wellFormed = false ∧
      (Instr.genGetval 4).wellFormed = true := by decide

/-- The words of R86's table, RSV, SZ and OP written out bit by bit. -/
theorem test_decode_engine_words :
    decode (0#53 ++ 0b000#3 ++ 0b00000001#8) = .ok .engKey ∧
    decode (0#53 ++ 0b000#3 ++ 0b00000010#8) = .ok .engEnc ∧
    decode (0#53 ++ 0b000#3 ++ 0b00000011#8) = .ok .engCtr := by decide

theorem test_decode_generator_words :
    decode (0#53 ++ 0b000#3 ++ 0b00010000#8) = .ok .genSeed ∧
    decode (0#53 ++ 0b000#3 ++ 0b00010001#8) = .ok .genGetbytes ∧
    decode (0#53 ++ 0b000#3 ++ 0b00010010#8) = .ok (.genGetval 0) ∧
    decode (0#53 ++ 0b001#3 ++ 0b00010010#8) = .ok (.genGetval 1) ∧
    decode (0#53 ++ 0b010#3 ++ 0b00010010#8) = .ok (.genGetval 2) ∧
    decode (0#53 ++ 0b011#3 ++ 0b00010010#8) = .ok (.genGetval 3) ∧
    decode (0#53 ++ 0b100#3 ++ 0b00010010#8) = .ok (.genGetval 4) ∧
    decode (0#53 ++ 0b000#3 ++ 0b00010011#8) = .ok .genGetbools ∧
    decode (0#53 ++ 0b000#3 ++ 0b00010100#8) = .ok .genGetbit ∧
    decode (0#53 ++ 0b000#3 ++ 0b00010101#8) = .ok .genView ∧
    decode (0#53 ++ 0b000#3 ++ 0b00010110#8) = .ok .genGetseed ∧
    decode (0#53 ++ 0b000#3 ++ 0b00010111#8) = .ok .genRelease := by decide

/-- V-DEC-1 to V-DEC-8. -/
theorem test_decode_illegal_words :
    decode 0x0000000000000000 = .error .reservedOp ∧
    decode 0x0000000000000004 = .error .reservedOp ∧
    decode 0x0000000000000018 = .error .reservedOp ∧
    decode 0x00000000000000ff = .error .reservedOp ∧
    decode 0x0000000000000111 = .error .sizeMisuse ∧
    decode 0x0000000000000512 = .error .sizeMisuse ∧
    decode 0x0000000000000801 = .error .reservedBits ∧
    decode 0x8000000000000010 = .error .reservedBits := by decide

/-- A write that is not 8 bytes wide is no command (R83). -/
theorem test_decode_short_write : decodeBytes [0x01, 0, 0, 0] = .error .badLength := by decide

/-- The table's word of GEN.GETVAL, laid out as bytes and read back; and a word that is none. -/
theorem test_decodeTableWord :
    decodeTableWord 64 0x412 = some (.genGetval 4) ∧ decodeTableWord 64 0x512 = none := by decide

/-! ### VectorBlock (V-VB) -/

/-- V-VB-1. -/
theorem test_lanes :
    extractLane64 (hx 0x000102030405060708090a0b0c0d0e0f) 0 = 0x0706050403020100 ∧
    extractLane64 (hx 0x000102030405060708090a0b0c0d0e0f) 1 = 0x0f0e0d0c0b0a0908 ∧
    ∀ i : Fin 16, (extractByte (hx 0x000102030405060708090a0b0c0d0e0f) i).toNat = i.val := by decide +kernel

/-- V-VB-2, V-VB-3, V-VB-5, V-VB-8. -/
theorem test_blocks :
    fromHalves 0x1122334455667788 0x99aabbccddeeff00 = hx 0x00ffeeddccbbaa998877665544332211 ∧
    fromLow64 5 = hx 0x05000000000000000000000000000000 ∧
    xorBlock (hx 0x000102030405060708090a0b0c0d0e0f) (hx 0xffffffffffffffffffffffffffffffff) =
      hx 0xfffefdfcfbfaf9f8f7f6f5f4f3f2f1f0 ∧
    ctrBlock 0x0102030405060708 = hx 0x08070605040302010807060504030201 := by decide +kernel

/-! ### AES (V-GF, V-SB, V-SR, V-MC, V-KS, F-1 to F-5) -/

/-- V-GF-1 to V-GF-4. -/
theorem test_field : xtime 0x57 = 0xae ∧ xtime 0x80 = 0x1b ∧ gmul 0x57 0x83 = 0xc1 ∧ gmul 0x57 0x13 = 0xfe := by
  decide +kernel

/-- V-SB-1, V-SB-2. -/
theorem test_sbox :
    sbox 0x00 = 0x63 ∧ sbox 0x01 = 0x7c ∧ sbox 0x10 = 0xca ∧ sbox 0x53 = 0xed ∧ sbox 0xff = 0x16 ∧
    subBytes (hx 0x00112233445566778899aabbccddeeff) = hx 0x638293c31bfc33f5c4eeacea4bc12816 := by decide +kernel

/-- V-SR-1, V-MC-1. -/
theorem test_shift_and_mix :
    shiftRows (hx 0x000102030405060708090a0b0c0d0e0f) = hx 0x00050a0f04090e03080d02070c01060b ∧
    mixColumns (hx 0xdb135345f20a225c01010101c6c6c6c6) = hx 0x8e4da1bc9fdc589d01010101c6c6c6c6 := by decide +kernel

/-- F-4: the second round of FIPS-197 Appendix B, with the round key of F-3. -/
theorem test_round_of_appendix_b :
    fullRound (hx 0x193de3bea0f4e22b9ac68d2ae9f84808) (hx 0xa0fafe1788542cb123a339392a6c7605) =
      hx 0xa49c7ff2689f352b6b5bea43026a5049 := by decide +kernel

/-- F-3 and V-KS-4, their first and last round keys. -/
theorem test_key_schedule :
    (keySchedule (hx 0x2b7e151628aed2a6abf7158809cf4f3c))[1] = hx 0xa0fafe1788542cb123a339392a6c7605 ∧
    (keySchedule (hx 0x2b7e151628aed2a6abf7158809cf4f3c))[10] = hx 0xd014f9a8c9ee2589e13f0cc8b6630ca6 ∧
    (keySchedule (hx 0xffffffffffffffffffffffffffffffff))[10] = hx 0xd60a3588e472f07b82d2d7858cd7c326 := by
  decide +kernel

/-- F-1 (FIPS-197 C.1). -/
theorem test_encrypt_appendix_c :
    encrypt (keySchedule (hx 0x000102030405060708090a0b0c0d0e0f)) (hx 0x00112233445566778899aabbccddeeff) =
      hx 0x69c4e0d86a7b0430d8cdb78070b4c55a := by decide +kernel

/-- F-2 (FIPS-197 Appendix B). -/
theorem test_encrypt_appendix_b :
    encrypt (keySchedule (hx 0x2b7e151628aed2a6abf7158809cf4f3c)) (hx 0x3243f6a8885a308d313198a2e0370734) =
      hx 0x3925841d02dc09fbdc118597196a0b32 := by decide +kernel

/-- F-5, V-KS-3: the reset key. -/
theorem test_encrypt_zero : encrypt (keySchedule zeroBlock) zeroBlock = hx 0x66e94bd4ef8a2c3b884cfa59ca342b2e := by
  decide +kernel

/-- V-CTR-4: the counter wraps. -/
theorem test_counter_range_wraps :
    encryptCounterRange rk1 0xffffffffffffffff 2 =
      [hx 0x1525c334b3759877b978a9639c89737b, hx 0xdbf184112eb9111659712bafcff2ab24] := by decide +kernel

/-! ### The engine's commands (V-ENG) -/

/-- V-ENG-1. -/
theorem test_engKey_vector :
    seen (exec .engKey (issued idle (opsK1 0) 0x01)) (fun t => (t.engRk[10], t.resLo, Status.toWord t.status)) =
      some (hx 0xbcc414426f1a5c73a1816265b1b14087, 0, 0x0) := by decide +kernel

/-- V-ENG-10: the generator keeps its key. -/
theorem test_engKey_keeps_generator :
    seen (exec .engKey (issued (ready 1) (ops 1 2 3 4 5) 0x01)) (fun t => (t.gen.rk[0], columns t)) =
      some (k1, 1, 1, 0, 0x2) := by decide +kernel

/-- V-ENG-4. -/
theorem test_engEnc_vector :
    seen (exec .engEnc (issued { idle with engRk := keySchedule (hx 0x000102030405060708090a0b0c0d0e0f) }
      (ops 0x7766554433221100 0xffeeddccbbaa9988 0 0 0) 0x02)) (fun t => (t.resLo, t.resHi)) =
      some (0x30047b6ad8e0c469, 0x5ac5b47080b7cdd8) := by decide +kernel

/-- V-ENG-6: unaligned, and the counter wraps. -/
theorem test_engCtr_wraps :
    seen (exec .engCtr (issued { idle with engRk := rk1 } (ops 0 0 0xffffffffffffffff 2 0x8003) 0x03))
      (fun t => bytesAt t 0x8002 34) =
      some ([none] ++ (blockBytes (hx 0x1525c334b3759877b978a9639c89737b)).map some ++
        (blockBytes (hx 0xdbf184112eb9111659712bafcff2ab24)).map some ++ [none]) := by decide +kernel

/-- V-ENG-8, V-ENG-9. -/
theorem test_engCtr_bad_footprint :
    faulted (exec .engCtr (issued idle (ops 0 0 0 1 (2 ^ 20 - 8)) 0x03)) = some .dmaRange ∧
    faulted (exec .engCtr (issued idle (ops 0 0 0 1 0x8ff8) 0x03)) = some .dmaDenied := by decide +kernel

/-! ### The generator's commands (V-GEN) -/

/-- V-GEN-1. -/
theorem test_genSeed_vector :
    seen (exec .genSeed (issued idle (opsK1 1) 0x10)) (fun t => (t.gen.buf, columns t)) =
      some (blockBytes (hx 0xdbf184112eb9111659712bafcff2ab24), 1, 1, 0, 0x2) := by decide +kernel

/-- V-GEN-17 and V-GEN-18: the two errors; only the first replaces the key. -/
theorem test_genSeed_errors :
    seen (exec .genSeed (issued idle (opsK1 0) 0x10)) (fun t => (t.gen.rk[0], columns t)) = some (k1, 0, 0, 0, 0x10) ∧
    seen (exec .genSeed (issued idle (opsK1 5) 0x10)) (fun t => (t.gen.rk[0], columns t)) =
      some (zeroBlock, 0, 0, 0, 0x30) := by decide +kernel

/-- V-GEN-5, its first two commands: 5 bytes, and the 27 that end the buffer, with a refill. -/
theorem test_genGetbytes_refills :
    seen (exec .genGetbytes (issued (ready 2) (ops 0 0 5 0 0x8000) 0x11)) (fun t => (bytesAt t 0x8000 6, columns t)) =
      some ([some 0xdb, some 0xf1, some 0x84, some 0x11, some 0x2e, none], 2, 2, 5, 0x2) ∧
    seen (exec .genGetbytes (issued { ready 2 with gen := Gen.advance (readyGen 2) 5 } (ops 0 0 27 0 0x8000) 0x11))
      (fun t => (bytesAt t 0x800a 2, columns t)) = some ([some 0x24, some 0x2c], 2, 4, 0, 0x2) := by decide +kernel

/-- V-GEN-22. -/
theorem test_genGetbytes_range :
    faulted (exec .genGetbytes (issued (ready 1) (ops 0 0 4 0 (2 ^ 20 - 2)) 0x11)) = some .dmaRange := by
  decide +kernel

/-- V-GEN-4: sixteen bytes across a refill. -/
theorem test_genGetval_across_refill :
    seen (exec (.genGetval 4) (issued { ready 1 with gen := Gen.advance (readyGen 1) 7 } (ops 0 0 0 0 0) 0x412))
      (fun t => (t.resLo, t.resHi, columns t)) =
      some (0xabf2cfaf2b715916, 0xf27aa5141b4a2c24, 1, 2, 7, 0x2) := by decide +kernel

/-- V-GEN-3, its last command: four bytes, RES_HI zero. -/
theorem test_genGetval_narrow :
    seen (exec (.genGetval 2) (issued { ready 1 with gen := Gen.advance (readyGen 1) 3, resHi := 9 }
      (ops 0 0 0 0 0) 0x212)) (fun t => (t.resLo, t.resHi, columns t)) =
      some (0x11b92e11, 0, 1, 1, 7, 0x2) := by decide +kernel

/-- V-GEN-8: the last four of its twenty bytes come from the refilled buffer. -/
theorem test_genGetbools_vector :
    seen (exec .genGetbools (issued (ready 1) (ops 0 0 20 0 0x8000) 0x13)) (fun t => (bytesAt t 0x8000 20, columns t)) =
      some ([1, 1, 0, 1, 0, 1, 1, 0, 1, 1, 1, 1, 1, 0, 1, 0, 0, 0, 1, 0].map some, 1, 2, 4, 0x2) := by decide +kernel

/-- V-GEN-9, its first bit. -/
theorem test_genGetbit_first :
    seen (exec .genGetbit (issued (ready 1) (ops 0 0 0 0 0) 0x14)) (fun t => (t.resLo, t.resHi, columns t)) =
      some (1, 0, 1, 1, 1, 0x2) := by decide +kernel

/-- V-GEN-9, its last bit, which refills. -/
theorem test_genGetbit_last :
    seen (exec .genGetbit (issued { ready 1 with gen := Gen.advance (readyGen 1) 15 } (ops 0 0 0 0 0) 0x14))
      (fun t => (t.resLo, t.resHi, columns t)) = some (0, 0, 1, 2, 0, 0x2) := by decide +kernel

/-- V-GEN-10, its second view: the rest of the buffer, and the cursor stays at its end. -/
theorem test_genView_rest :
    seen (exec .genView (issued { ready 2 with gen := Gen.advance (readyGen 2) 20 } (ops 0 0 20 0 0) 0x15))
      (fun t => (t.viewOff, t.viewLen, columns t)) = some (20, 12, 2, 2, 32, 0x6) := by decide +kernel

/-- V-GEN-12a: an exhausted buffer is refilled even for an empty view. -/
theorem test_genView_refills :
    seen (exec .genView (issued { ready 1 with gen := Gen.advance (readyGen 1) 16 } (ops 0 0 0 0 0) 0x15))
      (fun t => (t.viewOff, t.viewLen, columns t)) = some (0, 0, 1, 2, 0, 0x6) := by decide +kernel

/-- V-GEN-15 and V-GEN-16. -/
theorem test_genGetseed_vectors :
    seen (exec .genGetseed (issued (ready 1) (ops 0 0 0 0 0) 0x16)) (fun t => (t.resLo, t.resHi, columns t)) =
      some (0x0807060504030201, 0x100f0e0d0c0b0a09, 1, 1, 0, 0x2) ∧
    seen (exec .genGetseed (issued idle (ops 0 0 0 0 0) 0x16)) (fun t => (t.resLo, columns t)) =
      some (0, 0, 0, 0, 0x10) := by decide +kernel

/-- V-GEN-20: the release. -/
theorem test_genRelease_vector :
    seen (exec .genRelease (issued (ready 2) (ops 0 0 0 0 0) 0x17)) (fun t => (t.gen.rk[0], columns t)) =
      some (zeroBlock, 0, 0, 0, 0x0) := by decide +kernel

/-- V-DEC-5, V-DEC-11: an illegal word ends with ILLEGAL, no DMA fault, SEEDED kept. -/
theorem test_illegal_word :
    seen (engineTurn (issued (ready 1) (ops 0 0 4 0 (2 ^ 20)) 0x111)) columns = some (1, 1, 0, 0x22) := by decide +kernel

/-! ### Host accesses (V-HA, V-GEN-11) -/

/-- V-HA-1 to V-HA-5. -/
theorem test_bad_register_accesses :
    faulted (State.hostRead idle 0x10008 4) = some .regAccess ∧
    faulted (State.hostRead idle 0x1000c 8) = some .regAccess ∧
    faulted (State.hostRead idle 0x10078 8) = some .regAccess ∧
    faulted (State.hostWrite idle 0x10038 (bytesOfWord 0)) = some .regAccess ∧
    faulted (State.hostRead idle 0x10000 8) = some .regAccess := by decide +kernel

/-- V-HA-6, V-HA-7, V-HA-8, V-HA-11: the accesses while a command is pending. -/
theorem test_accesses_while_busy :
    faulted (State.hostWrite (issued idle (ops 1 2 3 4 5) 0x01) 0x10020 (bytesOfWord 0)) = some .busyAccess ∧
    faulted (State.hostWrite (issued idle (ops 1 2 3 4 5) 0x01) 0x10000 (bytesOfWord 2)) = some .busyAccess ∧
    seen (State.hostRead (issued idle (ops 1 2 3 4 5) 0x01) 0x10020 8) (·.hostData) = some (bytesOfWord 3) ∧
    seen (State.hostRead (issued idle (ops 1 2 3 4 5) 0x01) 0x10070 8) (·.hostData) = some (bytesOfWord 4) := by
  decide +kernel

/-- V-HA-10: the last byte of the footprint is raced for, the next one is not. -/
theorem test_dma_race :
    faulted (State.hostWrite (issued (ready 1) (ops 0 0 4 0 0x8000) 0x11) 0x8003 [1]) = some .dmaRace ∧
    seen (State.hostWrite (issued (ready 1) (ops 0 0 4 0 0x8000) 0x11) 0x8004 [1]) (·.mem) = some [(0x8004, 1)] := by
  decide +kernel

/-- The view of V-GEN-11. -/
def viewing : State :=
  { ready 2 with
    gen := Gen.advance (readyGen 2) 20
    viewOff := 0
    viewLen := 20
    status := ⟨false, true, true, .ok⟩ }

/-- V-GEN-11, V-GEN-11a, V-HA-13. -/
theorem test_window_reads :
    seen (State.hostRead viewing 0x11000 8) (·.hostData) = some (bytesOfWord 0x1611b92e1184f1db) ∧
    seen (State.hostRead viewing 0x11010 4) (·.hostData) = some (bytesLE 4 0x141b4a2c) ∧
    faulted (State.hostRead viewing 0x11014 1) = some .staleView ∧
    faulted (State.hostRead viewing 0x11000 16) = some .regAccess := by decide +kernel

/-- A host word is little-endian in memory (R52). -/
theorem test_host_store_little_endian :
    seen (State.hostWrite idle 0x8000 (bytesLE 2 0x1234)) (·.mem) = some [(0x8000, 0x34), (0x8001, 0x12)] := by
  decide +kernel

/-- The word placed by withFetchWord is the very next thing performed, whatever was to come. -/
theorem test_withFetchWord :
    seen (step (State.withFetchWord { idle with events := [.reset], fault := some .regAccess } 64 0x02)) (·.resLo) =
      some 0x3b2c8aefd44be966 := by decide +kernel

/-! ### Witnesses: states and operands that meet the hypotheses of the statements, clause by clause -/

/-- A pending command in the small instance. -/
def pending (c : Word) : State := issued (ready 1) (ops 1 2 4 1 0x8000) c

/-- The Ready generator meets the generator's invariant. -/
theorem readyGen_inv (n : Word) (h : n ≠ 0#64) (h4 : n.toNat ≤ 4) : Gen.inv 4 (readyGen n) :=
  Gen.inv_refill h h4 (scheduled_keySchedule k1)

theorem params_wf : Params.wf params := by decide

/-- The Ready state meets the machine's invariant. -/
theorem ready_inv (n : Word) (h : n ≠ 0#64) (h4 : n.toNat ≤ 4) : State.inv (ready n) := by
  have hn : (readyGen n).n = n := by simp [readyGen]
  refine ⟨params_wf, readyGen_inv n h h4, scheduled_keySchedule _, rfl, by rintro p ⟨⟩, ?_, by rintro ⟨⟩,
    List.Pairwise.nil, by rintro c ⟨⟩⟩
  show true = decide ((readyGen n).n ≠ 0#64)
  rw [hn]
  exact (decide_eq_true h).symm

theorem wit_CmdWrite : idle.status.busy = false ∧ (pending 0x01).status.busy = true := by decide

theorem wit_StepPerforms :
    let s := pending 0x412
    s.fault = none ∧ s.status.busy = true ∧
      s.pend = some ⟨cmdOp 0x412, cmdSz 0x412, legalWord 0x412, ops 1 2 4 1 0x8000⟩ ∧
      decode 0x412 = .ok (.genGetval 4) ∧ s.events = [] ∧ ({ s with events := [.engine] }).events = .engine :: [] ∧
      decodeTableWord 64 0x412 = some (.genGetval 4) := by decide +kernel

/-- The ENGINE's other turns: a pending word that is not legal, and nothing pending. -/
theorem wit_StepPerforms_engine :
    (let s := pending 0x512;
      s.fault = none ∧ s.status.busy = true ∧ (s.pend.map (·.legal)) = some false ∧ s.events = []) ∧
    (let s := { idle with events := [.engine] };
      s.fault = none ∧ s.status.busy = false ∧ s.events = .engine :: []) := by decide

/-- The host's accesses: BASE + 0x70 read, and a command word written to BASE. -/
theorem wit_StepPerforms_host :
    let r := { idle with events := [.read 0x10070 8] }
    let w := { idle with events := [.write 0x10000 (bytesOfWord 0x02), .engine] }
    r.fault = none ∧ r.events = .read 0x10070 8 :: [] ∧ w.fault = none ∧
      w.events = .write 0x10000 (bytesOfWord 0x02) :: [.engine] := by decide

/-- A word of each kind that R81 lists, at the ends of its ranges. -/
theorem wit_IllegalWord :
    cmdOp 0x00 = 0x00#8 ∧ (0x04#8 ≤ cmdOp 0x04 ∧ cmdOp 0x0F ≤ 0x0F#8) ∧ (0x18#8 ≤ cmdOp 0x18 ∧ cmdOp 0x1F ≤ 0x1F#8) ∧
      0x20#8 ≤ cmdOp 0x20 ∧ 0x20#8 ≤ cmdOp 0xFF ∧ cmdRsv 0x801 ≠ 0#53 ∧ (cmdSz 0x111 ≠ 0#3 ∧ cmdOp 0x111 ≠ 0x12#8) ∧
      (5#3 ≤ cmdSz 0x512 ∧ cmdOp 0x512 = 0x12#8) := by decide

theorem wit_IllegalWord_pending :
    ∃ p, (pending 0x512).status.busy = true ∧ (pending 0x512).pend = some p ∧ p.legal = false :=
  ⟨_, rfl, rfl, by decide⟩

theorem wit_OperandRegisterWrite :
    idle.status.busy = false ∧ (pending 0x11).status.busy = true ∧ 0x030 ∈ [0x010, 0x018, 0x020, 0x028, 0x030] := by
  decide

theorem wit_RegisterRead : viewing.status.busy = false ∧ (pending 0x11).status.busy = true := by decide

theorem wit_BadRegisterAccess :
    (0xFFF < 0x1000 ∧ 0 < 8 ∧ (8 ≠ 8 ∨ 0xFFF % 8 ≠ 0)) ∧ (0x008 < 0x1000 ∧ 0 < 4 ∧ (4 ≠ 8 ∨ 0x008 % 8 ≠ 0)) ∧
      (0x078 < 0x1000 ∧ 0x078 ≤ 0x078) ∧
      (0x070 < 0x1000 ∧ 0x070 ∈ [0x008, 0x038, 0x040, 0x048, 0x050, 0x058, 0x060, 0x068, 0x070]) := by decide

/-- The window's clauses: a bad width, BUSY, no view, a read one byte past the view, and its last byte. -/
theorem wit_WindowRead :
    (0 < 16 * viewing.params.nmax ∧ 16 ∉ [1, 2, 4, 8]) ∧ (pending 0x11).status.busy = true ∧
      ((ready 2).status.busy = false ∧ (ready 2).status.viewValid = false) ∧
      (viewing.status.busy = false ∧ viewing.status.viewValid = true ∧ 20 < 16 * viewing.params.nmax ∧
        viewing.viewOff.toNat + viewing.viewLen.toNat < 20 + 1) ∧
      (19 < 16 * viewing.params.nmax ∧ viewing.viewOff.toNat ≤ 19 ∧
        19 + 1 ≤ viewing.viewOff.toNat + viewing.viewLen.toNat) := by decide

/-- Host memory below and above the block, a byte of the footprint and the one after it. -/
theorem wit_HostMemoryAccess :
    let s := pending 0x11
    (0xFFFF + 1 ≤ s.params.base ∧ s.params.base + 0x1000 + 16 * s.params.nmax ≤ 0x11040 ∧
      0xFFFFF + 1 ≤ 2 ^ s.params.addrW) ∧
    (s.status.busy = true ∧ inRange (0x8003, 1) 0x8003 ∧ inRange (State.footprint s) 0x8003) ∧
    ∀ x, inRange (0x8004, 1) x → ¬ inRange (State.footprint s) x := by
  refine ⟨by decide, ⟨by decide, by unfold inRange; decide, by unfold inRange; decide⟩, ?_⟩
  intro x h
  have hf : State.footprint (pending 0x11) = (0x8000, 4) := by decide
  simp only [inRange, hf] at h ⊢
  omega

theorem wit_Footprint :
    (pending 0x03).pend = some ⟨cmdOp 0x03, cmdSz 0x03, legalWord 0x03, ops 1 2 4 1 0x8000⟩ ∧
      (pending 0x13).pend = some ⟨cmdOp 0x13, cmdSz 0x13, legalWord 0x13, ops 1 2 4 1 0x8000⟩ ∧
      (pending 0x512).pend = some ⟨cmdOp 0x512, cmdSz 0x512, legalWord 0x512, ops 1 2 4 1 0x8000⟩ ∧
      (0x512 : Word) ≠ 0x03#64 ∧ (0x512 : Word) ≠ 0x11#64 ∧ (0x512 : Word) ≠ 0x13#64 := by decide

theorem wit_ResetAbandons :
    let s := { pending 0x11 with events := [.reset] }
    s.fault = none ∧ s.events = .reset :: [] ∧ inRange (State.footprint s) 0x8003 ∧
      ¬ inRange (State.footprint s) 0x8004 ∧ 3 < (State.footprint s).2 ∧
      (State.footprint s).1 + 3 < 2 ^ s.params.addrW := by
  unfold inRange; decide

/-- The states of the cipher's rounds, for the hypothesis of EncryptIsTenRounds. -/
def roundState (rk : RoundKeys) (pt : Block) : Nat → Block
  | 0 => pt ^^^ rk[0]
  | r + 1 => if h : r < 9 then mixColumns (shiftRows (subBytes (roundState rk pt r))) ^^^ rk[r + 1] else 0

theorem wit_EncryptIsTenRounds (rk : RoundKeys) (pt : Block) :
    roundState rk pt 0 = pt ^^^ rk[0] ∧
      ∀ r (h : r < 9), roundState rk pt (r + 1) = mixColumns (shiftRows (subBytes (roundState rk pt r))) ^^^ rk[r + 1] :=
  ⟨rfl, fun r h => by rw [roundState, dif_pos h]⟩

theorem wit_KeyScheduleWordByWord : 9 < 10 ∧ 1 ≤ 1 := by decide

/-- ENG.CTR's clauses: nothing to write, a footprint that ends at `2^ADDR_W`, one a byte further, a denied one. -/
theorem wit_EngCtr :
    State.opB (issued idle (ops 0 0 0 0 (2 ^ 63)) 0x03) = 0 ∧
    (let s := issued idle (ops 0 0 0 1 0xFFFF0) 0x03;
      0 < State.opB s ∧ State.dst s + 16 * State.opB s = 2 ^ s.params.addrW ∧
      Params.admits s.params (State.dst s) (16 * State.opB s) = true) ∧
    (let s := issued idle (ops 0 0 0 1 0xFFFF1) 0x03;
      0 < State.opB s ∧ 2 ^ s.params.addrW < State.dst s + 16 * State.opB s) ∧
    (let s := issued idle (ops 0 0 0 1 0x8FF1) 0x03;
      0 < State.opB s ∧ State.dst s + 16 * State.opB s ≤ 2 ^ s.params.addrW ∧
      Params.admits s.params (State.dst s) (16 * State.opB s) = false) := by decide

theorem wit_Refill : Gen.reset.n = 0#64 ∧ (readyGen 2).n ≠ 0#64 ∧ 1 < (readyGen 2).n.toNat := by decide

theorem wit_Consume : 4 ≤ 2 ^ 32 ∧ Gen.inv 4 (readyGen 2) ∧ (readyGen 2).n ≠ 0#64 :=
  ⟨by decide, readyGen_inv 2 (by decide) (by decide), by decide⟩

/-- Two buffer sizes at one stream position (V-GEN-13). -/
theorem wit_KeystreamIgnoresBufferSize :
    Gen.inv 4 (readyGen 1) ∧ Gen.inv 4 (readyGen 2) ∧ (readyGen 1).n ≠ (readyGen 2).n ∧
      (readyGen 1).n ≠ 0#64 ∧ (readyGen 2).n ≠ 0#64 ∧ (readyGen 1).rk = (readyGen 2).rk ∧
      Gen.streamPos (readyGen 1) % 2 ^ 68 = Gen.streamPos (readyGen 2) % 2 ^ 68 :=
  ⟨readyGen_inv 1 (by decide) (by decide), readyGen_inv 2 (by decide) (by decide), by decide, by decide, by decide, rfl,
    by decide⟩

/-- The last refill whose counters do not wrap: blocks of `2^63`, twice. -/
theorem wit_Refills :
    let g : Gen := ⟨rk1, 0x8000000000000000, 0#64, 0#64, []⟩
    g.ctr = 0#64 ∧ 2 * g.n.toNat ≤ 2 ^ 64 ∧ 1 < 2 ∧ 2 ^ 63 - 1 < g.n.toNat := by decide

theorem wit_Unseeded : idle.gen.n = 0#64 ∧ (Instr.genGetval 4).wellFormed = true := by decide

/-- GEN.SEED's clauses: one block too many, none, the largest size, and a Ready generator. -/
theorem wit_Seed :
    (idle.gen.n = 0#64 ∧ idle.params.nmax < State.opA (issued idle (opsK1 5) 0x10)) ∧
    State.opA (issued idle (opsK1 0) 0x10) = 0 ∧
    (let s := issued idle (opsK1 4) 0x10;
      s.gen.n = 0#64 ∧ 0 < State.opA s ∧ State.opA s ≤ s.params.nmax ∧ (4 : Word) = (State.operands s).argA) ∧
    (ready 2).gen.n ≠ 0#64 := by decide

/-- The clauses of GEN.GETBYTES and GEN.GETBOOLS, at the ends of host memory and of the denied range. -/
theorem wit_Getbytes :
    Params.wf (ready 1).params ∧ Gen.inv (ready 1).params.nmax (ready 1).gen ∧ (ready 1).gen.n ≠ 0#64 ∧
    State.opA (issued (ready 1) (ops 0 0 0 0 (2 ^ 63)) 0x11) = 0 ∧
    (let s := issued (ready 1) (ops 0 0 4 0 0xFFFFC) 0x11;
      0 < State.opA s ∧ State.dst s + State.opA s = 2 ^ s.params.addrW ∧
      Params.admits s.params (State.dst s) (State.opA s) = true) ∧
    (let s := issued (ready 1) (ops 0 0 4 0 0xFFFFD) 0x11;
      0 < State.opA s ∧ 2 ^ s.params.addrW < State.dst s + State.opA s) ∧
    (let s := issued (ready 1) (ops 0 0 4 0 0x8FFD) 0x11;
      0 < State.opA s ∧ State.dst s + State.opA s ≤ 2 ^ s.params.addrW ∧
      Params.admits s.params (State.dst s) (State.opA s) = false) :=
  ⟨params_wf, readyGen_inv 1 (by decide) (by decide), by decide, by decide, by decide, by decide, by decide⟩

theorem wit_Getval :
    Params.wf (ready 1).params ∧ Gen.inv (ready 1).params.nmax (ready 1).gen ∧ (ready 1).gen.n ≠ 0#64 ∧ 4#3 ≤ 4#3 :=
  ⟨params_wf, readyGen_inv 1 (by decide) (by decide), by decide, by decide⟩

/-- GEN.VIEW: a buffer with bytes left, whose window the request is longer than; the exhausted case is
test_genView_refills's. -/
theorem wit_View :
    Gen.inv (ready 1).params.nmax (ready 1).gen ∧ (ready 1).gen.n ≠ 0#64 ∧
      (ready 1).gen = (if (ready 1).gen.cursor.toNat = 16 * (ready 1).gen.n.toNat then (Gen.refill (ready 1).gen).1
        else (ready 1).gen) ∧
      16 = min (State.opA (issued (ready 1) (ops 0 0 100 0 0) 0x15))
        (16 * (ready 1).gen.n.toNat - (ready 1).gen.cursor.toNat) :=
  ⟨readyGen_inv 1 (by decide) (by decide), by decide, by rw [if_neg (by decide)], by decide⟩

/-- A GEN.VIEW that has taken the cursor to the end of the buffer. -/
def drained : Gen := Gen.advance (readyGen 1) 16

theorem wit_View_exhausted : Gen.inv 4 drained ∧ drained.n ≠ 0#64 ∧ drained.cursor.toNat = 16 * drained.n.toNat := by
  obtain ⟨h1, -, -, h4, h5⟩ := readyGen_inv 1 (by decide) (by decide)
  exact ⟨⟨h1, by decide, by decide, h4, h5⟩, by decide, by decide⟩

theorem wit_Getseed : (ready 1).gen.n ≠ 0#64 := by decide

theorem wit_OrderOfChecks :
    (idle.gen.n = 0#64 ∧ (ready 1).gen.n ≠ 0#64) ∧
    (let s := issued (ready 1) (ops 0 0 4 0 0xFFFFD) 0x13;
      0 < State.opA s ∧ 2 ^ s.params.addrW < State.dst s + State.opA s) := by decide

/-- Both ways an error can end a command: one that changes STATUS alone, and GEN.SEED's NOT_SEEDED. -/
theorem wit_ErrorsChangeOnlyStatus :
    (∃ p t, (issued idle (opsK1 0) 0x14).pend = some p ∧ engineTurn (issued idle (opsK1 0) 0x14) = .next t ∧
      t.status.err ≠ .ok) ∧
    ∃ p t, (issued idle (opsK1 0) 0x10).status.busy = true ∧ (issued idle (opsK1 0) 0x10).pend = some p ∧
      engineTurn (issued idle (opsK1 0) 0x10) = .next t ∧ Pend.instr? p = some .genSeed ∧
      t.status.err = .notSeeded :=
  ⟨⟨_, _, rfl, rfl, by decide⟩, ⟨_, _, rfl, rfl, rfl, by decide, by decide⟩⟩

theorem wit_ResultRegisters :
    (∃ t, exec .engKey idle = .next t) ∧ ∃ t, exec .genGetbit idle = .next t ∧ t.status.err ≠ .ok :=
  ⟨⟨_, rfl⟩, ⟨_, rfl, by decide⟩⟩

theorem wit_KeyContexts : (∃ t, exec .engEnc idle = .next t) ∧ isGen .engEnc = false ∧ isGen .genRelease = true :=
  ⟨⟨_, rfl⟩, rfl, rfl⟩

/-- An ENGINE turn that writes: the footprint's last byte and the byte after it. -/
theorem wit_EngineWrites :
    seen (engineTurn (pending 0x11)) (fun t => bytesAt t 0x8003 2) = some [some 0x11, none] ∧
      ¬ inRange (State.footprint (pending 0x11)) 0x8004 :=
  ⟨by decide +kernel, by unfold inRange; decide⟩

/-- A command that takes the last byte of the buffer and so refills. -/
theorem wit_ConsumingCommands :
    seen (exec .genGetbytes (issued (ready 1) (ops 0 0 16 0 0x8000) 0x11)) (fun t => (t.status.err, t.gen.cursor)) =
      some (.ok, 0) := by decide +kernel

/-- A view of the whole buffer, and the GEN.GETBYTES of its length. -/
theorem wit_ViewShows :
    let s := issued (ready 1) (ops 0 0 100 0 0x8000) 0x15
    let s' := issued (ready 1) (ops 0 0 16 0 0x8000) 0x11
    Params.wf s.params ∧ Gen.inv s.params.nmax s.gen ∧ s.gen.n ≠ 0#64 ∧ s'.gen = s.gen ∧
      seen (exec .genView s) (fun v => v.viewLen == (State.operands s').argA) = some true ∧
      (seen (exec .genGetbytes s') fun _ => ()) = some () :=
  ⟨params_wf, readyGen_inv 1 (by decide) (by decide), by decide, rfl, by decide +kernel, by decide +kernel⟩

/-- A state of the invariant beside reset, and a step of it. -/
theorem wit_StepKeepsTheInvariant : State.inv (ready 2) ∧ ∃ t, step (ready 2) = .next t :=
  ⟨ready_inv 2 (by decide) (by decide), ⟨_, rfl⟩⟩

theorem wit_Faulted : ({ idle with fault := some .dmaRace }).fault = some .dmaRace ∧ ∃ t, step idle = .next t :=
  ⟨rfl, ⟨_, rfl⟩⟩

/-- BUSY set by a write to CMD, and cleared by the ENGINE's turn and by a reset. -/
theorem wit_Busy :
    seen (step { idle with events := [.write 0x10000 (bytesOfWord 0x02)] }) (·.status.busy) = some true ∧
      (pending 0x17).status.busy = true ∧ seen (step (pending 0x17)) (·.status.busy) = some false ∧
      seen (step { pending 0x17 with events := [.reset] }) (·.status.busy) = some false := by decide +kernel

theorem wit_ViewValid :
    (pending 0x15).status.viewValid = false ∧ seen (step (pending 0x15)) (·.status.viewValid) = some true ∧
      seen (step { viewing with events := [.write 0x10000 (bytesOfWord 0x02)] }) (fun t => (t.status.busy,
        t.status.viewValid)) = some (true, false) := by decide +kernel

theorem wit_OperandRegisters :
    seen (step { idle with events := [.write 0x10020 (bytesOfWord 7)] }) (·.args.argA) = some 7 := by decide +kernel

/-- Each way a command may go: performed after two reads, abandoned, and stopped by the host's own access. -/
theorem wit_PendingCommand :
    (let s := { pending 0x17 with events := [.read 0x10070 8, .read 0x10010 8] };
      s.fault = none ∧ s.status.busy = true ∧ s.pend ≠ none) ∧
    seen (step { pending 0x17 with events := [.reset] }) (fun v => (v.status.busy, v.pend)) = some (false, none) ∧
    faulted (step { pending 0x17 with events := [.read 0x10000 8] }) = some .regAccess ∧
    faulted (step { pending 0x17 with events := [.write 0x10000 (bytesOfWord 1)] }) = some .busyAccess := by
  decide +kernel

end Sys2Proof.Tests
end

/-! ### Proofs: the scope (spec/00_scope.md) -/

namespace Sys2Proof.Machine

/-! #### The denied regions, byte by byte (R8, log 2) -/

/-- The region test compares only the ends of the two ranges. If all its comparisons fail, the higher of the two starts
is a byte of both. -/
theorem regionClear_eq_true {r : Region} {a n : Nat} :
    regionClear r a n = true ↔ ∀ x, a ≤ x → x < a + n → ¬ (r.base ≤ x ∧ x < r.base + r.size) := by
  simp only [regionClear, Bool.or_eq_true, beq_iff_eq, decide_eq_true_eq]
  constructor
  · intro hclear x hax hxn hx
    omega
  · intro hbytes
    have hstart := hbytes (max a r.base)
    omega

/-- `admits` asks each denied region. -/
theorem Params.admits_eq_true {p : Params} {a n : Nat} :
    Params.admits p a n = true ↔ ∀ r ∈ p.denied, regionClear r a n = true := by
  simp only [Params.admits, List.all_eq_true]

/-- Settles O15: each denied region is clear of the range byte by byte, and the quantifiers change places. -/
theorem admitsIsBytewise : Obligations.AdmitsIsBytewise := by
  unfold Obligations.AdmitsIsBytewise
  intro p a n
  rw [Params.admits_eq_true]
  constructor
  · intro hclear x hax hxn r hr
    exact regionClear_eq_true.1 (hclear r hr) x hax hxn
  · intro hbytes r hr
    exact regionClear_eq_true.2 fun x hax hxn => hbytes x hax hxn r hr

/-! #### The parameters along a step (R8, R37, log 1) -/

/-- R37: CAP shows a parameter and nothing else of the state. -/
@[simp] theorem State.regValue_cap (s : State) : State.regValue s .cap = some (BitVec.ofNat 64 s.params.nmax) := rfl

/-- The ENGINE's turn keeps the parameters, whatever it performs. -/
theorem engineTurn_params {s t : State} (h : engineTurn s = .next t) : t.params = s.params := by
  rcases engineTurn_eq_next.1 h with ⟨-, rfl⟩ | ⟨-, p, -, -, rfl⟩ | ⟨-, p, i, -, -, hexec⟩
  · rfl
  · rfl
  · exact (exec_ended hexec).params

/-- Every event keeps the parameters; a reset too, for it is the reset of the same instance (R230). -/
theorem performEvent_params {e : Event} {s t : State} (h : performEvent e s = .next t) : t.params = s.params := by
  cases e with
  | engine => exact engineTurn_params h
  | read a n =>
    obtain ⟨bs, d, rfl⟩ := hostRead_next h
    rfl
  | write a bs =>
    rcases hostWrite_next h with ⟨-, -, -, rfl⟩ | ⟨-, o, rfl⟩ | ⟨-, rfl⟩ <;> rfl
  | reset =>
    rw [next_eq_next.1 h]
    exact State.resetPulse_params s

/-- A step keeps the parameters, whichever agent takes it. -/
theorem step_params {s t : State} (h : step s = .next t) : t.params = s.params := by
  obtain ⟨-, ⟨-, hturn⟩ | ⟨e, es, -, hevent⟩⟩ := step_eq_next.1 h
  · exact engineTurn_params hturn
  · calc t.params = { s with events := es }.params := performEvent_params hevent
      _ = s.params := rfl

/-- Settles O54: a step keeps the parameters, and CAP shows only them. -/
theorem stepKeepsTheParameters : Obligations.StepKeepsTheParameters := by
  unfold Obligations.StepKeepsTheParameters
  intro s t h
  have hparams := step_params h
  exact ⟨hparams, by simp only [State.regValue_cap, hparams]⟩

end Sys2Proof.Machine

/-! ### Proofs: the state (spec/10_state.md) -/

namespace Sys2Proof.Machine

/-! #### STATUS as the host reads it (R25) -/

/-- Settles O16: STATUS has 32 values, eight for each of ERR's four codes, and each is read bit by bit. -/
theorem statusWordBits : Obligations.StatusWordBits := by
  unfold Obligations.StatusWordBits
  rintro ⟨busy, seeded, viewValid, err⟩
  cases err with
  | ok => revert busy seeded viewValid; decide
  | notSeeded => revert busy seeded viewValid; decide
  | illegal => revert busy seeded viewValid; decide
  | badSize => revert busy seeded viewValid; decide

/-! #### What a command can answer -/

/-- What performing command `i` in `s` can answer, over all commands: the shapes of the outcomes that name a next state,
with what each shape needs. -/
inductive Performed (s : State) : Instr → State → Prop
  /-- NOT_SEEDED (R163), BAD_SIZE (R180) or ILLEGAL (R81): STATUS and PEND alone. -/
  | refused (i : Instr) {code : ErrCode} (hcode : code ≠ .ok) : Performed s i (State.finish s code)
  /-- ENG.KEY (R140). -/
  | keyed : Performed s .engKey (State.finish { s with engRk := keySchedule (State.blk s) } .ok)
  /-- ENG.ENC and GEN.GETSEED (R141, R176): a result, and the generator as it was. -/
  | shown {i : Instr} (hi : i = .engEnc ∨ i = .genGetseed) (lo hi : Word) :
      Performed s i (State.finish (State.setRes s lo hi) .ok)
  /-- ENG.CTR (R142). -/
  | ranged (hfit : Params.dmaFault s.params (State.dst s) (16 * State.opB s) = none) :
      Performed s .engCtr (State.finish (State.dmaWrite s (State.dst s) (engCtrBytes s)) .ok)
  /-- GEN.SEED of an Unseeded generator with A = 0: it has a new key and stays Unseeded (R170). -/
  | unsized (hold : s.gen.n = 0#64) (hnew : (seedTarget s).n = 0#64) :
      Performed s .genSeed (State.finish { s with gen := seedTarget s } .notSeeded)
  /-- GEN.SEED (R170). -/
  | seeded (hsize : ¬(s.gen.n = 0#64 ∧ s.params.nmax < State.opA s)) (hnew : (seedTarget s).n ≠ 0#64) :
      Performed s .genSeed (State.finish { s with gen := (Gen.refill (seedTarget s)).1 } .ok)
  /-- GEN.GETBYTES and GEN.GETBOOLS (R171, R173). -/
  | stored {i : Instr} (hi : i = .genGetbytes ∨ i = .genGetbools) (hready : s.gen.n ≠ 0#64)
      (hfit : Params.dmaFault s.params (State.dst s) (State.opA s) = none) (f : Byte → Byte) :
      Performed s i (gotToMemory s f)
  /-- GEN.GETVAL and GEN.GETBIT (R172, R174): a result, consumed from the generator. -/
  | drawn {i : Instr} (hi : (∃ sz, i = .genGetval sz) ∨ i = .genGetbit) (hready : s.gen.n ≠ 0#64) (len : Nat)
      (lo hi : Word) : Performed s i (State.finish (State.setRes { s with gen := (Gen.consume s.gen len).2 } lo hi) .ok)
  /-- GEN.VIEW (R175). -/
  | viewed (hready : s.gen.n ≠ 0#64) : Performed s .genView (viewed s)
  /-- GEN.RELEASE (R177). -/
  | released : Performed s .genRelease (State.finish { s with gen := Gen.reset } .ok)

/-- A generator that GEN.SEED leaves without a size had none before (R170). -/
theorem seedTarget_unseeded {s : State} (h : (seedTarget s).n = 0#64) : s.gen.n = 0#64 := by
  unfold seedTarget at h
  rw [Gen.sizeIfUnsized_n, Gen.rekey_n] at h
  split at h
  · assumption
  · exact h

/-- GEN.SEED's three outcomes: the size refused, the size zero, and seeded (R170, R180). -/
theorem execGenSeed_performed {s t : State} (h : execGenSeed s = .next t) : Performed s .genSeed t := by
  rcases execGenSeed_eq_next.1 h with ⟨-, rfl⟩ | ⟨hsize, rfl⟩
  · exact .refused _ (by decide)
  · by_cases hnew : (seedTarget s).n = 0#64
    · rw [Gen.refill_of_unseeded hnew]
      exact .unsized (seedTarget_unseeded hnew) hnew
    · have hok : (Gen.refill (seedTarget s)).2 = .ok := by rw [Gen.refill_of_ready hnew]
      rw [hok]
      exact .seeded hsize hnew

/-- The one inversion of `exec`: a command that answers a next state answers one of the shapes of `Performed`. -/
theorem exec_performed {i : Instr} {s t : State} (h : exec i s = .next t) : Performed s i t := by
  have hgate : ErrCode.notSeeded ≠ .ok := by decide
  cases i with
  | engKey => rw [execEngKey_eq_next.1 h]; exact .keyed
  | engEnc => rw [execEngEnc_eq_next.1 h]; exact .shown (.inl rfl) _ _
  | engCtr =>
    obtain ⟨hfit, rfl⟩ := execEngCtr_eq_next.1 h
    exact .ranged hfit
  | genSeed => exact execGenSeed_performed h
  | genGetbytes =>
    rcases getToMemory_eq_next.1 h with ⟨-, rfl⟩ | ⟨hready, hfit, rfl⟩
    · exact .refused _ hgate
    · exact .stored (.inl rfl) hready hfit _
  | genGetval sz =>
    rcases execGenGetval_eq_next.1 h with ⟨-, rfl⟩ | ⟨-, -, rfl⟩ | ⟨-, hready, rfl⟩
    · exact .refused _ (by decide)
    · exact .refused _ hgate
    · exact .drawn (.inl ⟨sz, rfl⟩) hready _ _ _
  | genGetbools =>
    rcases getToMemory_eq_next.1 h with ⟨-, rfl⟩ | ⟨hready, hfit, rfl⟩
    · exact .refused _ hgate
    · exact .stored (.inr rfl) hready hfit _
  | genGetbit =>
    rcases execGenGetbit_eq_next.1 h with ⟨-, rfl⟩ | ⟨hready, rfl⟩
    · exact .refused _ hgate
    · exact .drawn (.inr rfl) hready _ _ _
  | genView =>
    rcases execGenView_eq_next.1 h with ⟨-, rfl⟩ | ⟨hready, rfl⟩
    · exact .refused _ hgate
    · exact .viewed hready
  | genGetseed =>
    rcases execGenGetseed_eq_next.1 h with ⟨-, rfl⟩ | ⟨-, rfl⟩
    · exact .refused _ hgate
    · exact .shown (.inr rfl) _ _
  | genRelease => rw [execGenRelease_eq_next.1 h]; exact .released

/-! #### The result registers and the key contexts along a command (R23, R30) -/

/-- Settles O45: of the shapes a command can answer, the two that write the result registers are those of the four
commands, finishing OK. -/
theorem resultRegistersChangeOnlyByResults : Obligations.ResultRegistersChangeOnlyByResults := by
  unfold Obligations.ResultRegistersChangeOnlyByResults
  intro i s t h hother
  cases exec_performed h with
  | shown hi lo hi' =>
    rcases hother with ⟨henc, -, -, hseed⟩ | herr
    · exact (hi.elim henc hseed).elim
    · exact absurd rfl herr
  | drawn hi _ len lo hi' =>
    rcases hother with ⟨-, hval, hbit, -⟩ | herr
    · exact (hi.elim (fun ⟨sz, hsz⟩ => hval sz hsz) hbit).elim
    · exact absurd rfl herr
  | _ => exact ⟨rfl, rfl⟩

/-- ENG.RK is ENG.KEY's alone (R30). -/
theorem exec_engRk {i : Instr} {s t : State} (h : exec i s = .next t) (hi : i ≠ .engKey) : t.engRk = s.engRk := by
  cases exec_performed h with
  | keyed => exact absurd rfl hi
  | _ => rfl

/-- GEN.RK is GEN.SEED's and GEN.RELEASE's alone (R30): a refill, a consumption and a view keep it. -/
theorem exec_genRk {i : Instr} {s t : State} (h : exec i s = .next t) (hseed : i ≠ .genSeed) (hrel : i ≠ .genRelease) :
    t.gen.rk = s.gen.rk := by
  cases exec_performed h with
  | unsized => exact absurd rfl hseed
  | seeded => exact absurd rfl hseed
  | released => exact absurd rfl hrel
  | stored => exact Gen.consume_rk _ _
  | drawn => exact Gen.consume_rk _ _
  | viewed => exact Gen.refillIfExhausted_rk _
  | _ => rfl

/-- The engine's three commands leave the generator alone (R30). -/
theorem exec_gen_of_engine {i : Instr} {s t : State} (h : exec i s = .next t) (hi : Claims.isGen i = false) :
    t.gen = s.gen := by
  cases exec_performed h with
  | refused => rfl
  | keyed => rfl
  | shown => rfl
  | ranged => rfl
  | stored hi' => rcases hi' with rfl | rfl <;> cases hi
  | drawn hi' => rcases hi' with ⟨sz, rfl⟩ | rfl <;> cases hi
  | _ => cases hi

/-- Settles O46: each key context has its own writers, and the engine's commands are not the generator's. -/
theorem keyContextsAreSeparate : Obligations.KeyContextsAreSeparate := by
  unfold Obligations.KeyContextsAreSeparate
  intro i s t h
  exact ⟨exec_engRk h, exec_genRk h, exec_gen_of_engine h⟩

/-! #### Unread bytes after a consuming command (R38 point 4) -/

/-- `Consume(L)` of a Ready generator leaves the cursor below `16*N`, in the words of R38. -/
theorem Gen.consume_cursor_lt {g : Gen} (h : g.n ≠ 0#64) (len : Nat) :
    (Gen.consume g len).2.cursor.toNat < 16 * (Gen.consume g len).2.n.toNat := by
  have hleft := Gen.consume_not_exhausted h len
  unfold Gen.exhausted Gen.capacity at hleft
  exact Nat.lt_of_not_le (of_decide_eq_false hleft)

/-- A refill of a Ready generator leaves the whole buffer unread (R162). -/
theorem Gen.refill_cursor_lt {g : Gen} (h : g.n ≠ 0#64) :
    (Gen.refill g).1.cursor.toNat < 16 * (Gen.refill g).1.n.toNat := by
  have hpos := Gen.capacity_pos h
  rw [Gen.refill_n, Gen.refill_of_ready h]
  unfold Gen.capacity at hpos
  simp only [BitVec.toNat_zero]
  omega

/-- Settles O49: a seeding command ends with a refill and a consuming one with `Consume(L)`. -/
theorem consumingCommandsLeaveUnreadBytes : Obligations.ConsumingCommandsLeaveUnreadBytes := by
  unfold Obligations.ConsumingCommandsLeaveUnreadBytes
  intro i s t h hok hi
  cases exec_performed h with
  | refused _ hcode => exact absurd hok hcode
  | unsized => cases hok
  | seeded _ hnew => exact Gen.refill_cursor_lt hnew
  | stored _ hready => exact Gen.consume_cursor_lt hready _
  | drawn _ hready len => exact Gen.consume_cursor_lt hready len
  | shown hi' => rcases hi' with rfl | rfl <;> simp at hi
  | _ => simp at hi

/-! #### ENG.RK and what can show it (R30) -/

/-- The state with another schedule in ENG.RK. -/
def State.withEngRk (k : RoundKeys) (s : State) : State := { s with engRk := k }

@[simp] theorem State.withEngRk_params (k : RoundKeys) (s : State) : (State.withEngRk k s).params = s.params := rfl
@[simp] theorem State.withEngRk_args (k : RoundKeys) (s : State) : (State.withEngRk k s).args = s.args := rfl
@[simp] theorem State.withEngRk_dst (k : RoundKeys) (s : State) : State.dst (State.withEngRk k s) = State.dst s := rfl
@[simp] theorem State.withEngRk_opA (k : RoundKeys) (s : State) : State.opA (State.withEngRk k s) = State.opA s := rfl
@[simp] theorem State.withEngRk_memFault (k : RoundKeys) (s : State) (a n : Nat) :
    State.memFault (State.withEngRk k s) a n = State.memFault s a n := rfl
@[simp] theorem State.withEngRk_regValue (k : RoundKeys) (s : State) (r : Reg) :
    State.regValue (State.withEngRk k s) r = State.regValue s r := by cases r <;> rfl

/-- `f` does not read ENG.RK: with another one its outcome is the same but for that ENG.RK. -/
def HidesEngRk (f : State → Host.Outcome State Fault Refusal) : Prop :=
  ∀ (k : RoundKeys) (s : State), f (State.withEngRk k s) = Claims.mapNext (State.withEngRk k) (f s)

/-- The gate asks only GEN.N, so it hides ENG.RK if what follows it does. -/
theorem seededGate_withEngRk {k : RoundKeys} {s : State} {r r' : Host.Outcome State Fault Refusal}
    (h : r' = Claims.mapNext (State.withEngRk k) r) :
    seededGate (State.withEngRk k s) r' = Claims.mapNext (State.withEngRk k) (seededGate s r) := by
  simp only [seededGate, apply_ite (Claims.mapNext (State.withEngRk k)), h]
  rfl

theorem getToMemory_hidesEngRk (f : Byte → Byte) : HidesEngRk fun s => getToMemory s f := by
  intro k s
  refine seededGate_withEngRk ?_
  simp only [State.withEngRk_params, State.withEngRk_dst, State.withEngRk_opA]
  cases Params.dmaFault s.params (State.dst s) (State.opA s) <;> rfl

/-- Every generator command leaves ENG.RK unread. -/
theorem exec_hidesEngRk {i : Instr} (hi : Claims.isGen i = true) : HidesEngRk (exec i) := by
  cases i with
  | engKey => cases hi
  | engEnc => cases hi
  | engCtr => cases hi
  | genSeed =>
    intro k s
    simp only [exec, execGenSeed, apply_ite (Claims.mapNext (State.withEngRk k))]
    rfl
  | genGetbytes => exact getToMemory_hidesEngRk id
  | genGetval sz =>
    intro k s
    simp only [exec, execGenGetval, apply_ite (Claims.mapNext (State.withEngRk k))]
    congr 1
    exact seededGate_withEngRk rfl
  | genGetbools => exact getToMemory_hidesEngRk boolByte
  | genGetbit => exact fun _ _ => seededGate_withEngRk rfl
  | genView => exact fun _ _ => seededGate_withEngRk rfl
  | genGetseed => exact fun _ _ => seededGate_withEngRk rfl
  | genRelease => exact fun _ _ => rfl

theorem readReg_hidesEngRk (r : Reg) : HidesEngRk fun s => State.readReg s r := by
  intro k s
  simp only [State.readReg, State.withEngRk_regValue]
  cases State.regValue s r with
  | none => rfl
  | some v => simp only [apply_ite (Claims.mapNext (State.withEngRk k))]; rfl

theorem readWindow_hidesEngRk (j w : Nat) : HidesEngRk fun s => State.readWindow s j w := by
  intro k s
  simp only [State.readWindow, apply_ite (Claims.mapNext (State.withEngRk k))]
  rfl

theorem hostRead_hidesEngRk (a n : Nat) : HidesEngRk fun s => State.hostRead s a n := by
  intro k s
  simp only [State.hostRead, State.withEngRk_params, State.withEngRk_memFault]
  cases Params.target s.params a n with
  | straddle => rfl
  | window j => exact readWindow_hidesEngRk j n k s
  | memory => cases State.memFault s a n <;> rfl
  | regs off =>
    dsimp only
    cases regAt off with
    | none => rfl
    | some r =>
      simp only [apply_ite (Claims.mapNext (State.withEngRk k))]
      congr 1
      exact readReg_hidesEngRk r k s

theorem writeReg_hidesEngRk (r : Reg) (v : Word) : HidesEngRk fun s => State.writeReg s r v := by
  intro k s
  simp only [State.writeReg, State.withEngRk_args]
  split
  · simp only [apply_ite (Claims.mapNext (State.withEngRk k))]; rfl
  · simp only [apply_ite (Claims.mapNext (State.withEngRk k))]; rfl
  · rfl

theorem hostWrite_hidesEngRk (a : Nat) (bs : List Byte) : HidesEngRk fun s => State.hostWrite s a bs := by
  intro k s
  simp only [State.hostWrite, State.withEngRk_params, State.withEngRk_memFault]
  cases Params.target s.params a bs.length with
  | straddle => rfl
  | window j => rfl
  | memory => cases State.memFault s a bs.length <;> rfl
  | regs off =>
    dsimp only
    cases regAt off with
    | none => rfl
    | some r =>
      simp only [apply_ite (Claims.mapNext (State.withEngRk k))]
      congr 1
      exact writeReg_hidesEngRk r (wordOfBytes bs) k s

/-- Settles O47: the generator's commands and the host's accesses do not read ENG.RK, and ENG.KEY replaces it. -/
theorem engineKeyIsShownByNoOtherCommand : Obligations.EngineKeyIsShownByNoOtherCommand := by
  unfold Obligations.EngineKeyIsShownByNoOtherCommand
  intro s k
  exact ⟨fun i hi => exec_hidesEngRk hi k s, rfl, fun a n => hostRead_hidesEngRk a n k s,
    fun a bs => hostWrite_hidesEngRk a bs k s⟩

/-! #### What a step can do, agent by agent (R7, R63, log 3) -/

/-- A register-space target names the offset the access was made at. -/
theorem Params.target_eq_regs {p : Params} {a n off : Nat} (h : Params.target p a n = .regs off) :
    a = p.base + off := by
  unfold Params.target at h
  split at h
  · cases h
  · split at h
    · cases h
    · split at h
      · simp only [Target.regs.injEq] at h
        omega
      · cases h

/-- A host write that answers a next state goes to a register as a whole, or to host memory below `2^ADDR_W`. -/
theorem hostWrite_target {s t : State} {a : Nat} {bs : List Byte} (h : State.hostWrite s a bs = .next t) :
    (∃ r, a = s.params.base + regOffset r ∧ bs.length = 8 ∧ State.writeReg s r (wordOfBytes bs) = .next t) ∨
    (State.memFault s a bs.length = none ∧ t = { s with mem := Memory.writeBytes s.mem a bs }) := by
  unfold State.hostWrite at h
  split at h
  · cases h
  · next off htarget =>
    split at h
    · cases h
    · next r hr =>
      split at h
      · next hlen =>
        refine .inl ⟨r, ?_, hlen, h⟩
        rw [← regAt_eq_some.1 hr]
        exact Params.target_eq_regs htarget
      · cases h
  · cases h
  · split at h
    · cases h
    · next hm => exact .inr ⟨hm, next_eq_next.1 h⟩

/-- The offsets of the five operand registers (R70, R74). -/
abbrev operandOffsets : List Nat := [0x010, 0x018, 0x020, 0x028, 0x030]

/-- Only the five operand registers take a value (R74). -/
theorem OperandRegs.put_eq_some {o o' : OperandRegs} {v : Word} {r : Reg} (h : OperandRegs.put o v r = some o') :
    regOffset r ∈ operandOffsets := by
  cases r <;> simp_all [OperandRegs.put, regOffset]

/-- What one step can do in a state with no fault marked: which event it takes, what the access needed, and the next state.
The ENGINE's turn stays `engineTurn`, which `engineTurn_eq_next` and `exec_performed` take apart. -/
inductive Move (s : State) : State → Prop
  /-- The ENGINE's turn, as an event or because no event is left (R240, R247). -/
  | engine {t : State} (hev : s.events = [] ∨ ∃ es, s.events = .engine :: es)
      (hturn : engineTurn { s with events := s.events.tail } = .next t) : Move s t
  /-- A host read (R60). -/
  | read {a n : Nat} {es : List Event} (hev : s.events = .read a n :: es) (bs : List Byte) (d : Nat) :
      Move s { s with events := es, hostData := bs, draws := d }
  /-- A command issued (R78). -/
  | issue {bs : List Byte} {es : List Event} (hev : s.events = .write s.params.base bs :: es) (hlen : bs.length = 8)
      (hidle : s.status.busy = false) : Move s (State.issue { s with events := es } (wordOfBytes bs))
  /-- An operand register written (R74). -/
  | operand {off : Nat} {bs : List Byte} {es : List Event} (hev : s.events = .write (s.params.base + off) bs :: es)
      (hoff : off ∈ operandOffsets) (hidle : s.status.busy = false) (o : OperandRegs) :
      Move s { s with events := es, args := o }
  /-- Host memory written (R55). -/
  | store {a : Nat} {bs : List Byte} {es : List Event} (hev : s.events = .write a bs :: es)
      (hfit : a + bs.length ≤ 2 ^ s.params.addrW) :
      Move s { s with events := es, mem := Memory.writeBytes s.mem a bs }
  /-- The reset pulse (R230). -/
  | reset {es : List Event} (hev : s.events = .reset :: es) : Move s (State.resetPulse { s with events := es })

/-- An access to host memory that does not fault lies below `2^ADDR_W` (R50). -/
theorem State.le_of_memFault_eq_none {s : State} {a n : Nat} (h : State.memFault s a n = none) :
    a + n ≤ 2 ^ s.params.addrW := by
  unfold State.memFault at h
  split at h
  · cases h
  · omega

/-- The one inversion of a host write event. -/
theorem hostWrite_move {s t : State} {a : Nat} {bs : List Byte} {es : List Event} (hev : s.events = .write a bs :: es)
    (h : State.hostWrite { s with events := es } a bs = .next t) : Move s t := by
  rcases hostWrite_target h with ⟨r, rfl, hlen, hwrite⟩ | ⟨hfit, rfl⟩
  · obtain ⟨hidle, ⟨rfl, rfl⟩ | ⟨o, hput, rfl⟩⟩ := writeReg_next hwrite
    · exact .issue hev hlen hidle
    · exact .operand hev (OperandRegs.put_eq_some hput) hidle o
  · exact .store hev (State.le_of_memFault_eq_none hfit)

/-- The one inversion of `step`: one of the moves. -/
theorem step_move {s t : State} (h : step s = .next t) : Move s t := by
  obtain ⟨-, ⟨hev, hturn⟩ | ⟨e, es, hev, hevent⟩⟩ := step_eq_next.1 h
  · have hsame : { s with events := s.events.tail } = s := by rw [hev, List.tail_nil, ← hev]
    exact .engine (.inl hev) (by rw [hsame]; exact hturn)
  · cases e with
    | engine => exact .engine (.inr ⟨es, hev⟩) (by rw [hev]; exact hevent)
    | read a n =>
      obtain ⟨bs, d, rfl⟩ := hostRead_next hevent
      exact .read hev bs d
    | write a bs => exact hostWrite_move hev hevent
    | reset => rw [next_eq_next.1 hevent]; exact .reset hev

/-! #### BUSY, VIEW_VALID and the operand registers along a step (R21, R26, R28) -/

/-- With BUSY = 0 the ENGINE's turn changes nothing (R240). -/
theorem engineTurn_of_idle {s t : State} (hidle : s.status.busy = false) (h : engineTurn s = .next t) : t = s := by
  unfold engineTurn at h
  rw [hidle] at h
  exact next_eq_next.1 h

/-- Only an issued command raises BUSY (R26, R78). -/
theorem Move.issue_of_busy_rises {s t : State} (h : Move s t) (hidle : s.status.busy = false)
    (hbusy : t.status.busy = true) :
    ∃ bs es, s.events = .write s.params.base bs :: es ∧ bs.length = 8 ∧
      t = State.issue { s with events := es } (wordOfBytes bs) := by
  cases h with
  | issue hev hlen _ => exact ⟨_, _, hev, hlen, rfl⟩
  | engine _ hturn =>
    rw [engineTurn_of_idle (s := { s with events := s.events.tail }) hidle hturn] at hbusy
    exact absurd (hidle.symm.trans hbusy) (by decide)
  | reset => cases hbusy
  | _ => exact absurd (hidle.symm.trans hbusy) (by decide)

/-- Only the ENGINE's turn and the reset pulse lower BUSY (R26, R230). -/
theorem Move.event_of_busy_falls {s t : State} (h : Move s t) (hbusy : s.status.busy = true)
    (hidle : t.status.busy = false) :
    s.events = [] ∨ ∃ es, s.events = .engine :: es ∨ s.events = .reset :: es := by
  cases h with
  | engine hev _ => exact hev.imp_right fun ⟨es, hes⟩ => ⟨es, .inl hes⟩
  | reset hev => exact .inr ⟨_, .inr hev⟩
  | issue => cases hidle
  | _ => exact absurd (hidle.symm.trans hbusy) (by decide)

/-- Settles O55: of the moves, one raises BUSY and two can lower it. -/
theorem busyChangesOnlyByIssueAndFinish : Obligations.BusyChangesOnlyByIssueAndFinish := by
  unfold Obligations.BusyChangesOnlyByIssueAndFinish
  intro s t h
  refine ⟨fun hidle hbusy => ?_, (step_move h).event_of_busy_falls⟩
  obtain ⟨bs, es, hev, hlen, -⟩ := (step_move h).issue_of_busy_rises hidle hbusy
  exact ⟨bs, es, hev, hlen⟩

/-- Of the commands only GEN.VIEW finishing OK changes VIEW_VALID (R28). -/
theorem exec_viewValid {i : Instr} {s t : State} (h : exec i s = .next t) :
    t.status.viewValid = s.status.viewValid ∨ (i = .genView ∧ t.status.err = .ok) := by
  cases exec_performed h with
  | viewed => exact .inr ⟨rfl, rfl⟩
  | _ => exact .inl rfl

/-- The ENGINE's turn sets VIEW_VALID only by performing GEN.VIEW (R28). -/
theorem engineTurn_view_of_viewValid_rises {s t : State} (h : engineTurn s = .next t)
    (hoff : s.status.viewValid = false) (hon : t.status.viewValid = true) :
    t.status.err = .ok ∧ ∃ p, s.pend = some p ∧ Pend.instr? p = some .genView := by
  have hne : t.status.viewValid ≠ s.status.viewValid := by rw [hoff, hon]; decide
  rcases engineTurn_eq_next.1 h with ⟨-, rfl⟩ | ⟨-, p, -, -, rfl⟩ | ⟨-, p, i, hp, hi, hexec⟩
  · exact absurd rfl hne
  · exact absurd rfl hne
  · obtain ⟨rfl, hok⟩ := (exec_viewValid hexec).resolve_left hne
    exact ⟨hok, p, hp, hi⟩

/-- Settles O56: VIEW_VALID is set in the ENGINE's turn alone, and the one move that raises BUSY clears it. -/
theorem viewValidIsSetOnlyByView : Obligations.ViewValidIsSetOnlyByView := by
  unfold Obligations.ViewValidIsSetOnlyByView
  intro s t h
  constructor
  · intro hoff hon
    cases step_move h with
    | engine hev hturn =>
      obtain ⟨hok, p, hp, hi⟩ := engineTurn_view_of_viewValid_rises hturn hoff hon
      exact ⟨hok, p, hp, hi, hev⟩
    | issue => cases hon
    | reset => cases hon
    | _ => exact absurd (hoff.symm.trans hon) (by decide)
  · intro hidle hbusy
    obtain ⟨bs, es, -, -, rfl⟩ := (step_move h).issue_of_busy_rises hidle hbusy
    rfl

/-- The ENGINE's turn leaves the operand registers alone (R21). -/
theorem engineTurn_args {s t : State} (h : engineTurn s = .next t) : t.args = s.args := by
  rcases engineTurn_eq_next.1 h with ⟨-, rfl⟩ | ⟨-, p, -, -, rfl⟩ | ⟨-, p, i, -, -, hexec⟩
  · rfl
  · rfl
  · exact (exec_ended hexec).args

/-- Settles O57: of the moves, a write of an operand register and the reset pulse change one. -/
theorem operandRegistersBelongToTheHost : Obligations.OperandRegistersBelongToTheHost := by
  unfold Obligations.OperandRegistersBelongToTheHost
  intro s t h hne
  cases step_move h with
  | operand hev hoff => exact ⟨_, .inr ⟨_, _, hoff, hev⟩⟩
  | reset hev => exact ⟨_, .inl hev⟩
  | engine _ hturn => exact absurd (engineTurn_args hturn) hne
  | _ => exact absurd rfl hne

/-! #### The generator's invariant along its procedures (R38) -/

/-- Handing out bytes of the live range keeps the invariant; NMAX's bound keeps the cursor below `2^64`. -/
theorem Gen.inv_advance_chunk {nmax : Nat} {g : Gen} (h : Gen.inv nmax g) (hmax : nmax ≤ 2 ^ 32) (rem : Nat) :
    Gen.inv nmax (Gen.advance g (Gen.chunk g rem)) := by
  obtain ⟨hn, hzero, hcursor, hrk, hbuf⟩ := h
  have hcap : Gen.capacity g = 16 * g.n.toNat := rfl
  have hto : (Gen.advance g (Gen.chunk g rem)).cursor.toNat = g.cursor.toNat + Gen.chunk g rem := by
    rw [Gen.advance_cursor, BitVec.toNat_ofNat]
    unfold Gen.chunk
    exact Nat.mod_eq_of_lt (by omega)
  refine ⟨hn, fun h0 => ⟨(hzero h0).1, ?_⟩, ?_, hrk, hbuf⟩
  · rw [Gen.advance_n] at h0
    rw [h0, BitVec.toNat_zero] at hcap
    apply BitVec.eq_of_toNat_eq
    rw [hto, BitVec.toNat_zero]
    unfold Gen.chunk
    omega
  · rw [hto]
    change g.cursor.toNat + Gen.chunk g rem ≤ Gen.capacity g
    unfold Gen.chunk
    omega

theorem Gen.inv_refillIfExhausted {nmax : Nat} {g : Gen} (h : Gen.inv nmax g) :
    Gen.inv nmax (Gen.refillIfExhausted g) := by
  unfold Gen.refillIfExhausted
  split
  · by_cases hn : g.n = 0#64
    · rw [Gen.refill_of_unseeded hn]
      exact h
    · obtain ⟨hle, -, -, hrk, -⟩ := h
      exact Gen.inv_refill hn hle hrk
  · exact h

theorem Gen.inv_consumeLoop {nmax fuel rem : Nat} {g : Gen} (h : Gen.inv nmax g) (hmax : nmax ≤ 2 ^ 32) :
    Gen.inv nmax (Gen.consumeLoop fuel rem g).2 := by
  induction fuel generalizing rem g with
  | zero => exact h
  | succ fuel ih =>
    have hnext := Gen.inv_refillIfExhausted (Gen.inv_advance_chunk h hmax rem)
    simp only [Gen.consumeLoop]
    split
    · exact hnext
    · exact ih hnext

theorem Gen.inv_consume {nmax : Nat} {g : Gen} (h : Gen.inv nmax g) (hmax : nmax ≤ 2 ^ 32) (len : Nat) :
    Gen.inv nmax (Gen.consume g len).2 := Gen.inv_consumeLoop h hmax

/-- GEN.SEED's size is within NMAX: the old one was, and a new one has passed the check (R170, R180). -/
theorem seedTarget_n_le {s : State} (h : Gen.inv s.params.nmax s.gen)
    (hsize : ¬(s.gen.n = 0#64 ∧ s.params.nmax < State.opA s)) : (seedTarget s).n.toNat ≤ s.params.nmax := by
  obtain ⟨hn, -⟩ := h
  unfold seedTarget
  rw [Gen.sizeIfUnsized_n, Gen.rekey_n]
  split
  · next h0 => exact Nat.le_of_not_lt fun hlt => hsize ⟨h0, hlt⟩
  · exact hn

theorem seedTarget_rk (s : State) : (seedTarget s).rk = keySchedule (State.blk s) := by
  unfold seedTarget
  rw [Gen.sizeIfUnsized_rk, Gen.rekey_rk]

/-- A generator that stays Unseeded under its new key keeps the invariant: it has no live byte for the key to belong to. -/
theorem Gen.inv_seedTarget {nmax : Nat} {s : State} (h : Gen.inv nmax s.gen) (hold : s.gen.n = 0#64)
    (hnew : (seedTarget s).n = 0#64) : Gen.inv nmax (seedTarget s) := by
  obtain ⟨-, hzero, -, -, hbuf⟩ := h
  have hcap : Gen.capacity s.gen = 0 := by unfold Gen.capacity; rw [hold]; rfl
  have htarget : seedTarget s = ⟨keySchedule (State.blk s), 0#64, 0#64, 0#64, []⟩ := by
    have hbuf' : s.gen.buf = [] := by rw [hbuf, hcap]; rfl
    have hn : (State.operands s).argA = 0#64 := by
      rwa [seedTarget, Gen.sizeIfUnsized_n, Gen.rekey_n, if_pos hold] at hnew
    simp [seedTarget, Gen.sizeIfUnsized, Gen.rekey, hold, hn, (hzero hold).2, hbuf']
  rw [htarget]
  exact Gen.inv_unseeded nmax _

/-! #### The machine's invariant where a command ends -/

/-- `finish` establishes what the invariant says of BUSY, PEND and SEEDED (R201). -/
theorem State.inv_finish {u : State} (code : ErrCode) (hparams : Params.wf u.params)
    (hgen : Gen.inv u.params.nmax u.gen) (hrk : scheduled u.engRk)
    (hview : u.status.viewValid = true → u.gen.n ≠ 0#64 ∧ u.viewOff.toNat + u.viewLen.toNat = u.gen.cursor.toNat)
    (hmem : Memory.inv u.params.addrW u.mem) : State.inv (State.finish u code) :=
  ⟨hparams, hgen, hrk, rfl, fun _ hp => (Option.not_mem_none _ hp).elim, rfl, fun hv => ⟨rfl, hview hv⟩, hmem⟩

/-- A DMA write that passes its check keeps memory's invariant (R54). -/
theorem Memory.inv_of_dmaFault {p : Params} {m : Memory} {a n : Nat} {bs : List Byte} (h : Memory.inv p.addrW m)
    (hfit : Params.dmaFault p a n = none) (hlen : bs.length = n) : Memory.inv p.addrW (Memory.writeBytes m a bs) := by
  subst hlen
  refine Memory.inv_writeBytes h ?_
  rcases Params.dmaFault_eq_none.1 hfit with hzero | ⟨hle, -⟩
  · exact .inl (List.eq_nil_of_length_eq_zero hzero)
  · exact .inr hle

/-- The view that GEN.VIEW hands out ends at the cursor it leaves (R175). -/
theorem viewed_view {s : State} (h : Gen.inv s.params.nmax s.gen) (hmax : s.params.nmax ≤ 2 ^ 32) :
    (viewed s).viewOff.toNat + (viewed s).viewLen.toNat = (viewed s).gen.cursor.toNat := by
  obtain ⟨hn, -, hcursor, -, -⟩ := Gen.inv_refillIfExhausted h
  have hcap : Gen.capacity (Gen.refillIfExhausted s.gen) = 16 * (Gen.refillIfExhausted s.gen).n.toNat := rfl
  simp only [viewed, State.finish_viewOff, State.finish_viewLen, State.finish_gen, Gen.advance_cursor,
    BitVec.toNat_ofNat]
  unfold Gen.chunk
  omega

/-- A pending command that is performed keeps the invariant. While it is pending no view is valid, so GEN.VIEW alone has
one to account for. -/
theorem exec_inv {i : Instr} {s t : State} (hinv : State.inv s) (hpending : s.pend ≠ none) (h : exec i s = .next t) :
    State.inv t := by
  obtain ⟨hparams, hgen, hrk, -, -, -, hview, hmem⟩ := hinv
  obtain ⟨-, hmax, -, -⟩ := id hparams
  have hnoview {P : Prop} (hv : s.status.viewValid = true) : P := absurd (hview hv).1 hpending
  cases exec_performed h with
  | refused => exact State.inv_finish _ hparams hgen hrk hnoview hmem
  | keyed => exact State.inv_finish _ hparams hgen (scheduled_keySchedule _) hnoview hmem
  | shown => exact State.inv_finish _ hparams hgen hrk hnoview hmem
  | ranged hfit =>
    exact State.inv_finish _ hparams hgen hrk hnoview (Memory.inv_of_dmaFault hmem hfit (engCtrBytes_length s))
  | unsized hold hnew => exact State.inv_finish _ hparams (Gen.inv_seedTarget hgen hold hnew) hrk hnoview hmem
  | seeded hsize hnew =>
    have hsched : scheduled (seedTarget s).rk := by rw [seedTarget_rk]; exact scheduled_keySchedule _
    exact State.inv_finish _ hparams (Gen.inv_refill hnew (seedTarget_n_le hgen hsize) hsched) hrk hnoview hmem
  | stored _ hready hfit f =>
    have hlen : ((Gen.consume s.gen (State.opA s)).1.map f).length = State.opA s := by
      rw [List.length_map, Gen.consume_length hready]
    exact State.inv_finish _ hparams (Gen.inv_consume hgen hmax _) hrk hnoview (Memory.inv_of_dmaFault hmem hfit hlen)
  | drawn _ _ len => exact State.inv_finish _ hparams (Gen.inv_consume hgen hmax len) hrk hnoview hmem
  | viewed hready =>
    refine State.inv_finish _ hparams (Gen.inv_advance_chunk (Gen.inv_refillIfExhausted hgen) hmax _) hrk
      (fun _ => ⟨?_, viewed_view hgen hmax⟩) hmem
    rw [Gen.advance_n, Gen.refillIfExhausted_n]
    exact hready
  | released => exact State.inv_finish _ hparams (Gen.inv_unseeded _ _) hrk hnoview hmem

/-- The ENGINE's turn keeps the invariant. -/
theorem engineTurn_inv {s t : State} (hinv : State.inv s) (h : engineTurn s = .next t) : State.inv t := by
  rcases engineTurn_eq_next.1 h with ⟨-, rfl⟩ | ⟨-, p, hp, -, rfl⟩ | ⟨-, p, i, hp, -, hexec⟩
  · exact hinv
  · obtain ⟨hparams, hgen, hrk, -, -, -, hview, hmem⟩ := hinv
    exact State.inv_finish _ hparams hgen hrk (fun hv => (hview hv).2) hmem
  · exact exec_inv hinv (by rw [hp]; exact Option.some_ne_none p) hexec

/-! #### The machine's invariant along the host's accesses and the reset -/

/-- The fields of a legal word decode (R77, R80). -/
theorem decodeFields_of_legalWord {c : Word} (h : legalWord c = true) :
    ∃ i, decodeFields (cmdOp c) (cmdSz c) = .ok i := by
  simp only [legalWord, Bool.and_eq_true, Bool.or_eq_true, decide_eq_true_eq] at h
  obtain ⟨⟨-, hop⟩, hsz⟩ := h
  by_cases hval : cmdOp c = 0x12#8
  · have hle : cmdSz c ≤ 4#3 := hsz.elim (fun h => absurd hval h.1) fun h => h.2
    exact ⟨.genGetval (cmdSz c), by simp [decodeFields, hval, hle]⟩
  · have hzero : cmdSz c = 0#3 := hsz.elim (fun h => h.2) fun h => absurd h.1 hval
    rw [hzero]
    simp only [List.contains_eq_mem, List.mem_cons, List.not_mem_nil, or_false, decide_eq_true_eq] at hop
    rcases hop with h | h | h | h | h | h | h | h | h | h | h <;> rw [h] <;> exact ⟨_, rfl⟩

/-- What a write to CMD latches meets PEND's invariant (R36, R78). -/
theorem State.latch_inv (s : State) (c : Word) : Pend.inv s.args (State.latch s c) := by
  refine ⟨rfl, ?_⟩
  change (if legalWord c = true then _ else _ : Option Instr).isSome = legalWord c
  split
  · next h =>
    obtain ⟨i, hi⟩ := decodeFields_of_legalWord h
    simp only [State.latch, hi, h, Option.isSome_some]
  · next h => simpa using h

/-- The schedule is no part of the invariant (log 3). -/
theorem State.inv_withEvents {s : State} (hinv : State.inv s) (es : List Event) :
    State.inv { s with events := es } := hinv

theorem State.inv_issue {s : State} (hinv : State.inv s) (c : Word) : State.inv (State.issue s c) := by
  obtain ⟨hparams, hgen, hrk, -, -, hseeded, -, hmem⟩ := hinv
  refine ⟨hparams, hgen, hrk, rfl, ?_, hseeded, nofun, hmem⟩
  intro p hp
  rw [← Option.some.inj hp]
  exact State.latch_inv s c

/-- With nothing pending the operand registers are tied to nothing (R36). -/
theorem State.inv_withArgs {s : State} (hinv : State.inv s) (hidle : s.status.busy = false) (o : OperandRegs) :
    State.inv { s with args := o } := by
  obtain ⟨hparams, hgen, hrk, hbusy, -, hseeded, hview, hmem⟩ := hinv
  have hnone : s.pend = none := Option.isNone_iff_eq_none.1 (Option.isSome_eq_false_iff.1 (hbusy.symm.trans hidle))
  refine ⟨hparams, hgen, hrk, hbusy, fun p hp => ?_, hseeded, hview, hmem⟩
  exact (Option.not_mem_none p (hnone ▸ hp)).elim

/-- Bytes written below `2^ADDR_W` touch no part of the invariant but memory's (R55). -/
theorem State.inv_writeBytes {s : State} (hinv : State.inv s) {a : Nat} {bs : List Byte}
    (hfit : a + bs.length ≤ 2 ^ s.params.addrW) : State.inv { s with mem := Memory.writeBytes s.mem a bs } := by
  obtain ⟨hparams, hgen, hrk, hbusy, hpend, hseeded, hview, hmem⟩ := hinv
  exact ⟨hparams, hgen, hrk, hbusy, hpend, hseeded, hview, Memory.inv_writeBytes hmem (.inr hfit)⟩

/-- The reset values meet the invariant whatever the parameters (R41). -/
theorem State.inv_resetWith {p : Params} {m : Memory} (hp : Params.wf p) (hm : Memory.inv p.addrW m) :
    State.inv (State.resetWith p m) :=
  ⟨hp, Gen.inv_unseeded _ _, scheduled_keySchedule _, rfl, nofun, rfl, nofun, hm⟩

/-- Settles O51: the chosen parameters are within R8's bounds, and host memory lists nothing. -/
theorem resetMeetsTheInvariant : Obligations.ResetMeetsTheInvariant := by
  unfold Obligations.ResetMeetsTheInvariant
  exact State.inv_resetWith (by decide) ⟨List.Pairwise.nil, nofun⟩

/-- An abandoned command's bytes fall below `2^ADDR_W` (R231). -/
theorem State.abandon_inv {s : State} (h : Memory.inv s.params.addrW s.mem) :
    Memory.inv s.params.addrW (State.abandon s) := by
  refine Memory.inv_writeBytes h ?_
  rw [← List.length_eq_zero_iff, List.length_map, List.length_range]
  unfold State.abandonedLength
  omega

/-- Settles O52: each move keeps the invariant. -/
theorem stepKeepsTheInvariant : Obligations.StepKeepsTheInvariant := by
  unfold Obligations.StepKeepsTheInvariant
  intro s t hinv h
  cases step_move h with
  | engine _ hturn => exact engineTurn_inv (State.inv_withEvents hinv _) hturn
  | read => exact hinv
  | issue => exact State.inv_issue (State.inv_withEvents hinv _) _
  | operand _ _ hidle o => exact State.inv_withArgs (State.inv_withEvents hinv _) hidle o
  | store _ hfit => exact State.inv_writeBytes (State.inv_withEvents hinv _) hfit
  | reset =>
    obtain ⟨hparams, -, -, -, -, -, -, hmem⟩ := hinv
    exact State.inv_resetWith hparams (State.abandon_inv (s := { s with events := _ }) hmem)

end Sys2Proof.Machine

/-! ### Proofs: the memory (spec/20_memory.md) -/

namespace Sys2Proof.Machine

/-! #### The buffer window (R58, R244) -/

/-- An access of at least one byte that begins in the window goes there, wherever it ends (R50, R61). -/
theorem Params.target_window {p : Params} {j n : Nat} (hj : j < 16 * p.nmax) (hn : 0 < n) :
    Params.target p (p.base + 0x1000 + j) n = .window j := by
  have hblock : ¬((decide (p.base + 0x1000 + j + n ≤ p.base) ||
      decide (p.base + 0x1000 + 16 * p.nmax ≤ p.base + 0x1000 + j)) = true) := by
    simp only [Bool.or_eq_true, decide_eq_true_eq]
    omega
  have hoff : p.base + 0x1000 + j - p.base - 0x1000 = j := by omega
  rw [Params.target, if_neg hblock, if_neg (by omega), if_neg (by omega), hoff]

theorem hostRead_window {s : State} {j n : Nat} (hj : j < 16 * s.params.nmax) (hn : 0 < n) :
    State.hostRead s (s.params.base + 0x1000 + j) n = State.readWindow s j n := by
  rw [State.hostRead, Params.target_window hj hn]

theorem hostWrite_window {s : State} {j : Nat} {bs : List Byte} (hj : j < 16 * s.params.nmax) (hn : 0 < bs.length) :
    State.hostWrite s (s.params.base + 0x1000 + j) bs = .fault .regAccess := by
  rw [State.hostWrite, Params.target_window hj hn]

/-- The window's check of the width, as membership (R58). -/
theorem windowWidth_refused {w : Nat} : (!([1, 2, 4, 8].contains w)) = true ↔ w ∉ [1, 2, 4, 8] := by
  rw [Bool.not_eq_true', List.contains_eq_mem, decide_eq_false_iff_not]

theorem readWindow_of_width {s : State} {j w : Nat} (hw : w ∉ [1, 2, 4, 8]) :
    State.readWindow s j w = .fault .regAccess := by
  rw [State.readWindow, if_pos (windowWidth_refused.2 hw)]

theorem readWindow_of_busy {s : State} {j w : Nat} (hw : w ∈ [1, 2, 4, 8]) (hbusy : s.status.busy = true) :
    State.readWindow s j w = .fault .busyAccess := by
  rw [State.readWindow, if_neg (fun h => windowWidth_refused.1 h hw), if_pos hbusy]

theorem readWindow_of_stale {s : State} {j w : Nat} (hw : w ∈ [1, 2, 4, 8]) (hidle : s.status.busy = false)
    (hstale : s.status.viewValid = false ∨ j < s.viewOff.toNat ∨ s.viewOff.toNat + s.viewLen.toNat < j + w) :
    State.readWindow s j w = .fault .staleView := by
  rw [State.readWindow, if_neg (fun h => windowWidth_refused.1 h hw), if_neg (by simp [hidle])]
  cases hvalid : s.status.viewValid with
  | false => rfl
  | true =>
    have houtside := hstale.resolve_left (by simp [hvalid])
    rw [if_neg (by decide), if_pos (by simpa using houtside)]

theorem readWindow_of_view {s : State} {j w : Nat} (hw : w ∈ [1, 2, 4, 8]) (hidle : s.status.busy = false)
    (hvalid : s.status.viewValid = true) (hlow : s.viewOff.toNat ≤ j)
    (hhigh : j + w ≤ s.viewOff.toNat + s.viewLen.toNat) :
    State.readWindow s j w = .next (State.deliver s (Gen.slice s.gen j w)) := by
  have hinside : ¬((decide (j < s.viewOff.toNat) || decide (s.viewOff.toNat + s.viewLen.toNat < j + w)) = true) := by
    simp only [Bool.or_eq_true, decide_eq_true_eq]
    omega
  rw [State.readWindow, if_neg (fun h => windowWidth_refused.1 h hw), if_neg (by simp [hidle]),
    if_neg (by simp [hvalid]), if_neg hinside]

/-- A live byte of the buffer stands in a slice as it is (R35, log 8). -/
theorem Gen.slice_getElem?_of_live {g : Gen} {off n i : Nat} {b : Byte} (hi : i < n) (hlive : g.buf[off + i]? = some b) :
    (Gen.slice g off n)[i]? = some b := by
  simp only [Gen.slice, List.getElem?_map, List.getElem?_range hi, Option.map_some, Gen.byteAt, hlive, Option.getD_some]

/-- Settles O12: every access that begins in the window goes to it, and a read there meets R58's checks in their order. -/
theorem windowReadFollowsTheView : Obligations.WindowReadFollowsTheView := by
  unfold Obligations.WindowReadFollowsTheView
  intro s j w hj hpos
  rw [hostRead_window hj hpos]
  refine ⟨readWindow_of_width, readWindow_of_busy, readWindow_of_stale, ?_, ?_⟩
  · intro hw hidle hvalid hlow hhigh
    exact ⟨Gen.slice s.gen j w, Gen.slice_length _ _ _, fun i b => Gen.slice_getElem?_of_live,
      readWindow_of_view hw hidle hvalid hlow hhigh⟩
  · rintro bs rfl
    exact hostWrite_window hj hpos

/-! #### The word of a pending command (R76, R77, R78) -/

/-- A command without a size decodes to itself and to nothing else. -/
theorem noSize_eq_ok {sz : BitVec 3} {i j : Instr} : noSize sz j = .ok i ↔ sz = 0#3 ∧ i = j := by
  unfold noSize
  split
  · next hzero => simp [hzero, eq_comm]
  · next hsize => simp [hsize]

/-- The fields of a command without a size, in its branch of the decoder. -/
theorem fields_of_noSize {op : BitVec 8} {sz : BitVec 3} {i j : Instr} (h : noSize sz j = .ok i) (hop : op = opOf j)
    (hsz : szOf j = 0#3) : opOf i = op ∧ szOf i = sz := by
  obtain ⟨rfl, rfl⟩ := noSize_eq_ok.1 h
  exact ⟨hop.symm, hsz⟩

/-- OP and SZ that decode are the fields of the command they decode to (R80): the decoder's branches in order, GEN.GETVAL
sixth. -/
theorem fields_of_decodeFields {op : BitVec 8} {sz : BitVec 3} {i : Instr} (h : decodeFields op sz = .ok i) :
    opOf i = op ∧ szOf i = sz := by
  unfold decodeFields at h
  iterate 5
    rcases ite_eq_iff.1 h with ⟨hop, h⟩ | ⟨-, h⟩
    · exact fields_of_noSize h hop rfl
  rcases ite_eq_iff.1 h with ⟨hop, h⟩ | ⟨-, h⟩
  · rcases ite_eq_iff.1 h with ⟨-, h⟩ | ⟨-, h⟩
    · obtain rfl := Except.ok.inj h
      exact ⟨hop.symm, rfl⟩
    · cases h
  iterate 5
    rcases ite_eq_iff.1 h with ⟨hop, h⟩ | ⟨-, h⟩
    · exact fields_of_noSize h hop rfl
  cases h

/-- A word is its three fields (R76). -/
theorem word_eq_fields (c : Word) : cmdRsv c ++ cmdSz c ++ cmdOp c = c :=
  calc cmdRsv c ++ cmdSz c ++ cmdOp c = c.extractLsb' 8 56 ++ c.extractLsb' 0 8 :=
        congrArg (· ++ cmdOp c) (BitVec.extractLsb'_append_extractLsb'_eq_extractLsb' rfl)
    _ = c.extractLsb' 0 64 := BitVec.extractLsb'_append_extractLsb'_eq_extractLsb' rfl
    _ = c := BitVec.extractLsb'_eq_self

theorem cmdRsv_of_legalWord {c : Word} (h : legalWord c = true) : cmdRsv c = 0#53 := by
  simp only [legalWord, Bool.and_eq_true, decide_eq_true_eq] at h
  obtain ⟨⟨hrsv, -⟩, -⟩ := h
  exact hrsv

/-- A latched word that stands for a command is that command's word: its RSV is zero, for it is legal, and OP and SZ are
the command's fields. -/
theorem encode_of_instr?_latched {c : Word} {a : OperandRegs} {i : Instr}
    (h : Pend.instr? ⟨cmdOp c, cmdSz c, legalWord c, a⟩ = some i) : encode i = c := by
  unfold Pend.instr? at h
  split at h
  · next hlegal =>
    split at h
    · next j hj =>
      obtain rfl := Option.some.inj h
      obtain ⟨hop, hsz⟩ := fields_of_decodeFields hj
      rw [encode, hop, hsz, ← cmdRsv_of_legalWord hlegal, word_eq_fields]
    · cases h
  · cases h

/-! #### The DMA footprint (R53) -/

theorem State.footprint_of_instr? {s : State} {p : Pend} {i : Instr} (hp : s.pend = some p)
    (hi : Pend.instr? p = some i) : State.footprint s = footprintOf i (State.operands s) := by
  simp only [State.footprint, State.operands, hp, Pend.footprint, hi]

theorem State.footprint_of_illegal {s : State} {p : Pend} (hp : s.pend = some p) (hi : Pend.instr? p = none) :
    State.footprint s = (p.args.addr.toNat, 0) := by
  simp only [State.footprint, hp, Pend.footprint, hi]

/-- Only the three commands that write host memory have a footprint (R53). -/
theorem footprintOf_length_eq_zero {i : Instr} (o : OperandRegs) (hctr : i ≠ .engCtr) (hbytes : i ≠ .genGetbytes)
    (hbools : i ≠ .genGetbools) : (footprintOf i o).2 = 0 := by
  cases i with
  | engCtr => exact absurd rfl hctr
  | genGetbytes => exact absurd rfl hbytes
  | genGetbools => exact absurd rfl hbools
  | _ => rfl

/-- Settles O14: the three words decode by evaluation, and a word that has a footprint is the word of one of the three
commands. -/
theorem footprintOfThePendingCommand : Obligations.FootprintOfThePendingCommand := by
  unfold Obligations.FootprintOfThePendingCommand
  intro s c a hp
  have hargs : State.operands s = a := by rw [State.operands, hp]
  refine ⟨?_, ?_, fun hctr hbytes hbools => ?_⟩
  · rintro rfl
    rw [State.footprint_of_instr? (i := .engCtr) hp rfl, hargs]
    rfl
  · rintro (rfl | rfl)
    · rw [State.footprint_of_instr? (i := .genGetbytes) hp rfl, hargs]
      rfl
    · rw [State.footprint_of_instr? (i := .genGetbools) hp rfl, hargs]
      rfl
  · cases hi : Pend.instr? ⟨cmdOp c, cmdSz c, legalWord c, a⟩ with
    | none => rw [State.footprint_of_illegal hp hi]
    | some i =>
      have hword := encode_of_instr?_latched hi
      rw [State.footprint_of_instr? hp hi]
      apply footprintOf_length_eq_zero
      · rintro rfl; exact hctr hword.symm
      · rintro rfl; exact hbytes hword.symm
      · rintro rfl; exact hbools hword.symm

/-! #### What the ENGINE writes (R53, R54) -/

/-- Bytes written over a range leave what is not in the range, in the words of the statements. -/
theorem Memory.get?_writeBytes_of_not_inRange {m : Memory} {a n x : Nat} {bs : List Byte} (hlen : bs.length = n)
    (hx : ¬ Claims.inRange (a, n) x) : Memory.get? (Memory.writeBytes m a bs) x = Memory.get? m x := by
  subst hlen
  exact (Memory.get?_writeBytes m a bs x).trans (if_neg hx)

/-- Performing a command writes within its footprint: of the shapes it can answer, two write memory, and each writes as
many bytes as the footprint has. -/
theorem exec_get?_of_not_inRange {i : Instr} {s t : State} (h : exec i s = .next t) {x : Nat}
    (hx : ¬ Claims.inRange (footprintOf i (State.operands s)) x) : Memory.get? t.mem x = Memory.get? s.mem x := by
  cases exec_performed h with
  | ranged => exact Memory.get?_writeBytes_of_not_inRange (engCtrBytes_length s) hx
  | stored hi hready _ f =>
    have hlen : ((Gen.consume s.gen (State.opA s)).1.map f).length = State.opA s := by
      rw [List.length_map, Gen.consume_length hready]
    rcases hi with rfl | rfl <;> exact Memory.get?_writeBytes_of_not_inRange hlen hx
  | _ => rfl

/-- Settles O48: the ENGINE's turn writes memory only by performing the pending command, within that command's footprint. -/
theorem engineWritesOnlyItsFootprint : Obligations.EngineWritesOnlyItsFootprint := by
  unfold Obligations.EngineWritesOnlyItsFootprint
  intro s t h x hx
  rcases engineTurn_eq_next.1 h with ⟨-, rfl⟩ | ⟨-, p, -, -, rfl⟩ | ⟨-, p, i, hp, hi, hexec⟩
  · rfl
  · rfl
  · rw [State.footprint_of_instr? hp hi] at hx
    exact exec_get?_of_not_inRange hexec hx

end Sys2Proof.Machine

/-! ### Proofs: the encoding (spec/30_encoding.md) -/

namespace Sys2Proof.Machine

/-! #### Decode and encode (R76, R77, R80, R86) -/

/-- R76, R77: the word of every well-formed command is legal and holds the command's fields. -/
theorem legal_encode (i : Instr) : Laws.Legal.Statement i := by
  cases i with
  | engKey => exact Laws.Legal.engKey
  | engEnc => exact Laws.Legal.engEnc
  | engCtr => exact Laws.Legal.engCtr
  | genSeed => exact Laws.Legal.genSeed
  | genGetbytes => exact Laws.Legal.genGetbytes
  | genGetval sz => exact Laws.Legal.genGetval sz
  | genGetbools => exact Laws.Legal.genGetbools
  | genGetbit => exact Laws.Legal.genGetbit
  | genView => exact Laws.Legal.genView
  | genGetseed => exact Laws.Legal.genGetseed
  | genRelease => exact Laws.Legal.genRelease

/-- A command's own fields decode to it when its SZ is one the encoding admits, and never to another command. -/
theorem decodeFields_opOf_szOf (i : Instr) : decodeFields (opOf i) (szOf i) = .ok i ↔ i.wellFormed = true := by
  cases i with
  | genGetval sz => by_cases hsz : sz ≤ 4#3 <;> simp [decodeFields, opOf, szOf, Instr.wellFormed, hsz]
  | _ => exact iff_of_true rfl rfl

/-- The fields that decode to `i` are those of `i`, and `i` is well-formed. -/
theorem decodeFields_eq_ok {op : BitVec 8} {sz : BitVec 3} {i : Instr} :
    decodeFields op sz = .ok i ↔ i.wellFormed = true ∧ opOf i = op ∧ szOf i = sz := by
  constructor
  · intro h
    obtain ⟨rfl, rfl⟩ := fields_of_decodeFields h
    exact ⟨(decodeFields_opOf_szOf i).1 h, rfl, rfl⟩
  · rintro ⟨hwf, rfl, rfl⟩
    exact (decodeFields_opOf_szOf i).2 hwf

theorem decode_eq_ok {c : Word} {i : Instr} :
    decode c = .ok i ↔ cmdRsv c = 0#53 ∧ decodeFields (cmdOp c) (cmdSz c) = .ok i := by
  unfold decode
  split
  · next hrsv => simp only [hrsv, true_and]
  · next hrsv => simp only [hrsv, reduceCtorEq, false_and]

theorem decode_encode (i : Instr) (hwf : i.wellFormed = true) : decode (encode i) = .ok i := by
  obtain ⟨-, hrsv, hop, hsz⟩ := legal_encode i hwf
  exact decode_eq_ok.2 ⟨hrsv, decodeFields_eq_ok.2 ⟨hwf, hop.symm, hsz.symm⟩⟩

/-- A word that decodes is the word of a well-formed command: its three fields are that command's. -/
theorem encode_of_decode {c : Word} {i : Instr} (h : decode c = .ok i) : i.wellFormed = true ∧ encode i = c := by
  obtain ⟨hrsv, hfields⟩ := decode_eq_ok.1 h
  obtain ⟨hwf, hop, hsz⟩ := decodeFields_eq_ok.1 hfields
  refine ⟨hwf, ?_⟩
  calc encode i = cmdRsv c ++ cmdSz c ++ cmdOp c := by rw [encode, hop, hsz, hrsv]
    _ = c := word_eq_fields c

/-- Settles O2: one direction by the fields of the decoded word, the other by those of the encoded command. -/
theorem decodeAndEncodeAreInverse : Obligations.DecodeAndEncodeAreInverse := by
  unfold Obligations.DecodeAndEncodeAreInverse
  intro i c
  constructor
  · exact encode_of_decode
  · rintro ⟨hwf, rfl⟩
    exact decode_encode i hwf

/-- The eleven values of OP (R80). -/
abbrev opcodes : List (BitVec 8) :=
  [0x01#8, 0x02#8, 0x03#8, 0x10#8, 0x11#8, 0x12#8, 0x13#8, 0x14#8, 0x15#8, 0x16#8, 0x17#8]

/-- R77's set, field by field. -/
theorem legalWord_eq_true {c : Word} :
    legalWord c = true ↔
      cmdRsv c = 0#53 ∧ cmdOp c ∈ opcodes ∧
        ((cmdOp c ≠ 0x12#8 ∧ cmdSz c = 0#3) ∨ (cmdOp c = 0x12#8 ∧ cmdSz c ≤ 4#3)) := by
  simp only [legalWord, Bool.and_eq_true, Bool.or_eq_true, decide_eq_true_eq, List.contains_iff_mem, and_assoc]

/-- The latched legal bit and the decoder agree (R77, R78). -/
theorem legalWord_iff_decodes {c : Word} : legalWord c = true ↔ ∃ i, decode c = .ok i := by
  constructor
  · intro h
    obtain ⟨i, hi⟩ := decodeFields_of_legalWord h
    exact ⟨i, decode_eq_ok.2 ⟨cmdRsv_of_legalWord h, hi⟩⟩
  · rintro ⟨i, hi⟩
    obtain ⟨hwf, rfl⟩ := encode_of_decode hi
    obtain ⟨hlegal, -, -, -⟩ := legal_encode i hwf
    exact hlegal

/-- Settles O1: the words that decode are the legal words, and those are R77's set. -/
theorem decodeAcceptsExactlyTheLegalWords : Obligations.DecodeAcceptsExactlyTheLegalWords := by
  unfold Obligations.DecodeAcceptsExactlyTheLegalWords
  intro c
  exact ⟨legalWord_iff_decodes.symm.trans legalWord_eq_true, legalWord_iff_decodes⟩

/-- Settles O3: each word of R86's table is its command's encoding. -/
theorem commandWordsOfTheTableDecode : Obligations.CommandWordsOfTheTableDecode := by
  unfold Obligations.CommandWordsOfTheTableDecode
  exact ⟨decode_encode .engKey rfl, decode_encode .engEnc rfl, decode_encode .engCtr rfl, decode_encode .genSeed rfl,
    decode_encode .genGetbytes rfl, decode_encode (.genGetval 0) rfl, decode_encode (.genGetval 1) rfl,
    decode_encode (.genGetval 2) rfl, decode_encode (.genGetval 3) rfl, decode_encode (.genGetval 4) rfl,
    decode_encode .genGetbools rfl, decode_encode .genGetbit rfl, decode_encode .genView rfl,
    decode_encode .genGetseed rfl, decode_encode .genRelease rfl⟩

/-! #### Illegal words (R81) -/

/-- The opcodes of R80 leave out every range that R81 lists. -/
theorem opcodes_outside_illegal_ranges {op : BitVec 8} (h : op ∈ opcodes) :
    op ≠ 0x00#8 ∧ ¬(0x04#8 ≤ op ∧ op ≤ 0x0F#8) ∧ ¬(0x18#8 ≤ op ∧ op ≤ 0x1F#8) ∧ ¬0x20#8 ≤ op := by
  revert op
  decide

theorem Pend.instr?_of_illegal {p : Pend} (h : p.legal = false) : Pend.instr? p = none := by
  simp only [Pend.instr?, h, Bool.false_eq_true, if_false]

theorem engineTurn_of_illegal {s : State} {p : Pend} (hbusy : s.status.busy = true) (hp : s.pend = some p)
    (hillegal : p.legal = false) : engineTurn s = .next (State.finishIllegal s) :=
  engineTurn_eq_next.2 (.inr (.inl ⟨hbusy, p, hp, Pend.instr?_of_illegal hillegal, rfl⟩))

/-- Settles O6: a legal word is in none of R81's classes, and the ENGINE's turn on an illegal one is `finish(ILLEGAL)`. -/
theorem illegalWordFinishesIllegalAlone : Obligations.IllegalWordFinishesIllegalAlone := by
  unfold Obligations.IllegalWordFinishesIllegalAlone
  refine ⟨fun c hlisted => ?_, fun s p => engineTurn_of_illegal⟩
  by_contra hlegal
  obtain ⟨hrsv, hop, hsz⟩ := legalWord_eq_true.1 (Bool.eq_true_of_not_eq_false hlegal)
  obtain ⟨hzero, hlow, hmiddle, hhigh⟩ := opcodes_outside_illegal_ranges hop
  rcases hlisted with h | h | h | h | h | ⟨hsize, hother⟩ | ⟨hlarge, hgetval⟩
  · exact hzero h
  · exact hlow h
  · exact hmiddle h
  · exact hhigh h
  · exact h hrsv
  · exact hsize (hsz.resolve_right fun h => hother h.1).2
  · have hle := (hsz.resolve_left fun h => h.1 hgetval).2
    bv_omega

/-! #### Where an access to register space goes (R50, R70, R71, R72) -/

theorem regOffset_mod (r : Reg) : regOffset r % 8 = 0 := by cases r <;> rfl

theorem regOffset_lt (r : Reg) : regOffset r < 0x078 := by cases r <;> decide

@[simp] theorem regAt_regOffset (r : Reg) : regAt (regOffset r) = some r := regAt_eq_some.2 rfl

/-- No register stands at an offset that is no multiple of 8, or behind CAP (R71, R72). -/
theorem regAt_eq_none {off : Nat} (h : off % 8 ≠ 0 ∨ 0x078 ≤ off) : regAt off = none := by
  refine Option.eq_none_iff_forall_ne_some.2 fun r hr => ?_
  have hmod := regOffset_mod r
  have hlt := regOffset_lt r
  rw [← regAt_eq_some.1 hr] at hmod hlt
  omega

/-- An access of at least one byte that begins in register space goes there, wherever it ends (R50, R61). -/
theorem Params.target_regs {p : Params} {off n : Nat} (hoff : off < 0x1000) (hn : 0 < n) :
    Params.target p (p.base + off) n = .regs off := by
  have hblock : ¬((decide (p.base + off + n ≤ p.base) ||
      decide (p.base + 0x1000 + 16 * p.nmax ≤ p.base + off)) = true) := by
    simp only [Bool.or_eq_true, decide_eq_true_eq]
    omega
  rw [Params.target, if_neg hblock, if_neg (by omega), if_pos (by omega), Nat.add_sub_cancel_left]

theorem hostRead_reg (s : State) (r : Reg) :
    State.hostRead s (s.params.base + regOffset r) 8 = State.readReg s r := by
  have hlt := regOffset_lt r
  simp only [State.hostRead, Params.target_regs (n := 8) (show regOffset r < 0x1000 by omega) (by decide),
    regAt_regOffset, if_true]

theorem hostWrite_reg (s : State) (r : Reg) (v : Word) :
    State.hostWrite s (s.params.base + regOffset r) (bytesOfWord v) = State.writeReg s r v := by
  have hlt := regOffset_lt r
  simp only [State.hostWrite, bytesOfWord_length,
    Params.target_regs (n := 8) (show regOffset r < 0x1000 by omega) (by decide), regAt_regOffset, if_true,
    wordOfBytes_bytesOfWord]

/-- Whatever register an access means, it faults if its width is not 8 or no register stands at its offset (R71, R72). -/
theorem hostRead_regs_fault {s : State} {off n : Nat} (hoff : off < 0x1000) (hn : 0 < n)
    (hbad : n ≠ 8 ∨ regAt off = none) : State.hostRead s (s.params.base + off) n = .fault .regAccess := by
  simp only [State.hostRead, Params.target_regs hoff hn]
  cases hr : regAt off with
  | none => rfl
  | some r => exact if_neg (hbad.resolve_right (by simp [hr]))

theorem hostWrite_regs_fault {s : State} {off : Nat} {bs : List Byte} (hoff : off < 0x1000) (hn : 0 < bs.length)
    (hbad : bs.length ≠ 8 ∨ regAt off = none) : State.hostWrite s (s.params.base + off) bs = .fault .regAccess := by
  simp only [State.hostWrite, Params.target_regs hoff hn]
  cases hr : regAt off with
  | none => rfl
  | some r => exact if_neg (hbad.resolve_right (by simp [hr]))

/-! #### Register writes (R73, R74, R78) -/

theorem writeReg_cmd_of_idle {s : State} {v : Word} (hidle : s.status.busy = false) :
    State.writeReg s .cmd v = .next (State.issue s v) := by
  simp only [State.writeReg, hidle, Bool.false_eq_true, if_false]

theorem writeReg_cmd_of_busy {s : State} {v : Word} (hbusy : s.status.busy = true) :
    State.writeReg s .cmd v = .fault .busyAccess := by
  simp only [State.writeReg, hbusy, if_true]

/-- A write of a register that takes a value, in the two states of BUSY (R74). -/
theorem writeReg_operand {s : State} {r : Reg} {v : Word} {o : OperandRegs}
    (hput : OperandRegs.put s.args v r = some o) :
    State.writeReg s r v = if s.status.busy then .fault .busyAccess else .next { s with args := o } := by
  unfold State.writeReg
  split
  · cases hput
  · next o' hput' => rw [Option.some.inj (hput.symm.trans hput')]
  · next hnone => cases hput.symm.trans hnone

/-- A register that is neither CMD nor an operand register is read-only (R73). -/
theorem writeReg_readOnly {s : State} {r : Reg} {v : Word} (hcmd : r ≠ .cmd)
    (hput : OperandRegs.put s.args v r = none) : State.writeReg s r v = .fault .regAccess := by
  unfold State.writeReg
  split
  · exact absurd rfl hcmd
  · next o hsome => cases hput.symm.trans hsome
  · rfl

/-- Settles O4: CMD stands at offset 0, and what the write issues is the latched word and R78's STATUS. -/
theorem cmdWriteLatchesTheCommand : Obligations.CmdWriteLatchesTheCommand := by
  unfold Obligations.CmdWriteLatchesTheCommand
  intro s c
  have hwrite : State.hostWrite s s.params.base (bytesOfWord c) = State.writeReg s .cmd c := hostWrite_reg s .cmd c
  rw [hwrite]
  exact ⟨writeReg_cmd_of_idle, writeReg_cmd_of_busy⟩

/-! #### Host accesses of the registers, as the host sees them -/

theorem hostWrite_operand_of_idle {s : State} {v : Word} {o : OperandRegs} (r : Reg)
    (hput : OperandRegs.put s.args v r = some o) (hidle : s.status.busy = false) :
    State.hostWrite s (s.params.base + regOffset r) (bytesOfWord v) = .next { s with args := o } := by
  rw [hostWrite_reg, writeReg_operand hput, if_neg (by simp [hidle])]

theorem hostWrite_operand_of_busy {s : State} {v : Word} {o : OperandRegs} (r : Reg)
    (hput : OperandRegs.put s.args v r = some o) (hbusy : s.status.busy = true) :
    State.hostWrite s (s.params.base + regOffset r) (bytesOfWord v) = .fault .busyAccess := by
  rw [hostWrite_reg, writeReg_operand hput, if_pos hbusy]

/-- Settles O8: each of the five offsets is an operand register's, and BUSY decides between the two answers. -/
theorem operandRegisterWriteStoresTheValue : Obligations.OperandRegisterWriteStoresTheValue := by
  unfold Obligations.OperandRegisterWriteStoresTheValue
  intro s v
  constructor
  · intro hidle
    exact ⟨hostWrite_operand_of_idle .argLo rfl hidle, hostWrite_operand_of_idle .argHi rfl hidle,
      hostWrite_operand_of_idle .argA rfl hidle, hostWrite_operand_of_idle .argB rfl hidle,
      hostWrite_operand_of_idle .addr rfl hidle⟩
  · intro hbusy
    simp only [List.forall_mem_cons]
    exact ⟨hostWrite_operand_of_busy .argLo rfl hbusy, hostWrite_operand_of_busy .argHi rfl hbusy,
      hostWrite_operand_of_busy .argA rfl hbusy, hostWrite_operand_of_busy .argB rfl hbusy,
      hostWrite_operand_of_busy .addr rfl hbusy, nofun⟩

/-! #### Register reads (R60, R73, R75, R242) -/

/-- Every register but CMD has a value (R73). -/
theorem State.regValue_eq_none {s : State} {r : Reg} : State.regValue s r = none ↔ r = .cmd := by
  cases r <;> simp [State.regValue]

/-- A register reads as its value with BUSY = 0, and the operand registers and CAP also with BUSY = 1 (R75). -/
theorem hostRead_value {s : State} (r : Reg) {v : Word} (hvalue : State.regValue s r = some v)
    (hclosed : s.status.busy = false ∨ (Reg.openWhileBusy r = false ∧ r ≠ .status)) :
    State.hostRead s (s.params.base + regOffset r) 8 = .next { s with hostData := bytesOfWord v } := by
  rw [hostRead_reg]
  simp only [State.readReg, hvalue]
  rcases hclosed with hidle | ⟨hopen, hstatus⟩
  · simp only [hidle, Bool.false_and, Bool.false_eq_true, if_false, State.deliver]
  · simp only [hopen, hstatus, decide_false, Bool.and_false, Bool.false_eq_true, if_false, State.deliver]

/-- With BUSY = 1 a result, view or mirror register reads as one free value (R75). -/
theorem hostRead_open {s : State} (r : Reg) (hbusy : s.status.busy = true) (hopen : Reg.openWhileBusy r = true) :
    State.hostRead s (s.params.base + regOffset r) 8 = .next (State.deliverDraw s id) := by
  rw [hostRead_reg]
  unfold State.readReg
  cases hvalue : State.regValue s r with
  | none =>
    obtain rfl := State.regValue_eq_none.1 hvalue
    cases hopen
  | some v => simp only [hbusy, hopen, Bool.and_self, if_true]

/-- With BUSY = 1 STATUS reads as a free value with R75's fixed bits. -/
theorem hostRead_status_of_busy {s : State} (hbusy : s.status.busy = true) :
    State.hostRead s (s.params.base + 0x008) 8 = .next (State.deliverDraw s busyStatusWord) := by
  have hread : State.hostRead s (s.params.base + 0x008) 8 = State.readReg s .status := hostRead_reg s .status
  rw [hread]
  simp only [State.readReg, State.regValue, Reg.openWhileBusy, hbusy, Bool.and_false, Bool.false_eq_true, if_false,
    decide_true, Bool.and_self, if_true]

/-- R75, R242: the bits of STATUS that are fixed while BUSY = 1, whatever the free value is. -/
theorem busyStatusWord_fixed_bits (w : Word) :
    (busyStatusWord w).getLsbD 0 = true ∧ (busyStatusWord w).getLsbD 3 = false ∧
      (busyStatusWord w).extractLsb' 8 56 = 0#56 := by
  refine ⟨by simp [busyStatusWord], by simp [busyStatusWord], ?_⟩
  simp [busyStatusWord, BitVec.extractLsb'_or, BitVec.extractLsb'_and]

/-- Settles O9: with BUSY = 0 every register but CMD has a value, and the read delivers it. -/
theorem registerReadReturnsTheValue : Obligations.RegisterReadReturnsTheValue := by
  unfold Obligations.RegisterReadReturnsTheValue
  intro s hidle
  have hread (r : Reg) (v : Word) (hvalue : State.regValue s r = some v) :
      State.hostRead s (s.params.base + regOffset r) 8 = .next { s with hostData := bytesOfWord v } :=
    hostRead_value r hvalue (.inl hidle)
  simp only [List.forall_mem_cons]
  exact ⟨hread .status _ rfl, hread .argLo _ rfl, hread .argHi _ rfl, hread .argA _ rfl, hread .argB _ rfl,
    hread .addr _ rfl, hread .resLo _ rfl, hread .resHi _ rfl, hread .viewOff _ rfl, hread .viewLen _ rfl,
    hread .genN _ rfl, hread .genCtr _ rfl, hread .genCursor _ rfl, hread .cap _ rfl, nofun⟩

/-- Settles O10: with BUSY = 1 a register is closed and reads as its value, is STATUS, or is open and reads as a draw. -/
theorem registerReadWhileBusy : Obligations.RegisterReadWhileBusy := by
  unfold Obligations.RegisterReadWhileBusy
  intro s hbusy
  refine ⟨?_, ?_, ?_⟩
  · have hread (r : Reg) (v : Word) (hvalue : State.regValue s r = some v)
        (hclosed : Reg.openWhileBusy r = false ∧ r ≠ .status) :
        State.hostRead s (s.params.base + regOffset r) 8 = .next { s with hostData := bytesOfWord v } :=
      hostRead_value r hvalue (.inr hclosed)
    simp only [List.forall_mem_cons]
    exact ⟨hread .argLo _ rfl ⟨rfl, nofun⟩, hread .argHi _ rfl ⟨rfl, nofun⟩, hread .argA _ rfl ⟨rfl, nofun⟩,
      hread .argB _ rfl ⟨rfl, nofun⟩, hread .addr _ rfl ⟨rfl, nofun⟩, hread .cap _ rfl ⟨rfl, nofun⟩, nofun⟩
  · obtain ⟨hbit0, hbit3, hhigh⟩ := busyStatusWord_fixed_bits (Config.freeWord s.draws)
    exact ⟨_, hbit0, hbit3, hhigh, hostRead_status_of_busy hbusy⟩
  · have hread (r : Reg) (hopen : Reg.openWhileBusy r = true) : ∃ w : Word,
        State.hostRead s (s.params.base + regOffset r) 8 =
          .next { s with hostData := bytesOfWord w, draws := s.draws + 1 } :=
      ⟨Config.freeWord s.draws, hostRead_open r hbusy hopen⟩
    simp only [List.forall_mem_cons]
    exact ⟨hread .resLo rfl, hread .resHi rfl, hread .viewOff rfl, hread .viewLen rfl, hread .genN rfl,
      hread .genCtr rfl, hread .genCursor rfl, nofun⟩

/-! #### Register accesses that fault (R71, R72, R73, log 13) -/

/-- The offsets of the registers that the host may only read (R70, R73). -/
abbrev readOnlyOffsets : List Nat := [0x008, 0x038, 0x040, 0x048, 0x050, 0x058, 0x060, 0x068, 0x070]

theorem hostWrite_readOnly {off : Nat} (h : off ∈ readOnlyOffsets) (s : State) (v : Word) :
    State.hostWrite s (s.params.base + off) (bytesOfWord v) = .fault .regAccess := by
  have hdeny (r : Reg) (hcmd : r ≠ .cmd) (hput : OperandRegs.put s.args v r = none) :
      State.hostWrite s (s.params.base + regOffset r) (bytesOfWord v) = .fault .regAccess := by
    rw [hostWrite_reg, writeReg_readOnly hcmd hput]
  revert off
  simp only [readOnlyOffsets, List.forall_mem_cons]
  exact ⟨hdeny .status nofun rfl, hdeny .resLo nofun rfl, hdeny .resHi nofun rfl, hdeny .viewOff nofun rfl,
    hdeny .viewLen nofun rfl, hdeny .genN nofun rfl, hdeny .genCtr nofun rfl, hdeny .genCursor nofun rfl,
    hdeny .cap nofun rfl, nofun⟩

/-- Settles O11: no register stands at a misaligned or a reserved offset, a register takes only width 8, and the read-only
registers and CMD refuse the other direction. -/
theorem badRegisterAccessFaults : Obligations.BadRegisterAccessFaults := by
  unfold Obligations.BadRegisterAccessFaults
  intro s off hoff
  refine ⟨fun n hn hbad => ?_, fun bs hn hbad => ?_, fun hreserved => ⟨fun n hn => ?_, fun bs hn => ?_⟩, ?_, ?_⟩
  · exact hostRead_regs_fault hoff hn (hbad.imp_right fun hmod => regAt_eq_none (.inl hmod))
  · exact hostWrite_regs_fault hoff hn (hbad.imp_right fun hmod => regAt_eq_none (.inl hmod))
  · exact hostRead_regs_fault hoff hn (.inr (regAt_eq_none (.inr hreserved)))
  · exact hostWrite_regs_fault hoff hn (.inr (regAt_eq_none (.inr hreserved)))
  · exact fun hreadOnly v => hostWrite_readOnly hreadOnly s v
  · rintro rfl
    exact hostRead_reg s .cmd

end Sys2Proof.Machine

/-! ### Proofs: the vector block (spec/40_vectorblock.md) -/

namespace Sys2Proof.Machine

/-! #### Blocks and their bytes (R102, R107) -/

/-- R102 and R107 agree: each byte of a block made of bytes is the byte it was made of. -/
@[simp] theorem extractByte_blockOfBytes (f : Fin 16 → Byte) (i : Fin 16) : extractByte (blockOfBytes f) i = f i := by
  unfold extractByte blockOfBytes
  fin_cases i
  -- Each step drops the lowest byte of the append, as long as the byte asked for stands above it.
  all_goals repeat refine (BitVec.extractLsb'_append_eq_of_le (by decide)).trans ?_
  -- Byte 15, the last goal, now stands alone; every other byte is now the lowest of its append.
  pick_goal -1
  · exact BitVec.extractLsb'_eq_self
  all_goals exact BitVec.extractLsb'_append_eq_right

/-- A block is its 16 bytes: bit `k` of it is bit `k mod 8` of byte `k / 8`. -/
theorem block_ext_bytes {b c : Block} (h : ∀ i, extractByte b i = extractByte c i) : b = c := by
  have hbit (d : Block) (k : Nat) (hk : k < 128) :
      d.getLsbD k = (extractByte d ⟨k / 8, by omega⟩).getLsbD (k % 8) := by
    have hlow : k % 8 < 8 := Nat.mod_lt k (by decide)
    rw [extractByte, BitVec.getLsbD_extractLsb', decide_eq_true hlow, Bool.true_and, Nat.div_add_mod]
  apply BitVec.eq_of_getLsbD_eq
  intro k hk
  rw [hbit b k hk, hbit c k hk, h]

/-! #### Halves and lanes (R103, R106, R109) -/

@[simp] theorem extractLane64_zero_fromHalves (h l : Word) : extractLane64 (fromHalves h l) 0 = l :=
  BitVec.extractLsb'_append_eq_right

@[simp] theorem extractLane64_one_fromHalves (h l : Word) : extractLane64 (fromHalves h l) 1 = h :=
  BitVec.extractLsb'_append_eq_left

/-- Bytes 0 to 7 are those of the low half, in its own order. -/
theorem extractByte_fromHalves_of_lt {i : Fin 16} (hi : i.val < 8) (h l : Word) :
    extractByte (fromHalves h l) i = l.extractLsb' (8 * i.val) 8 :=
  BitVec.extractLsb'_append_eq_of_add_le (by omega)

/-- Bytes 8 to 15 are those of the high half, in its own order. -/
theorem extractByte_fromHalves_of_le {i : Fin 16} (hi : 8 ≤ i.val) (h l : Word) :
    extractByte (fromHalves h l) i = h.extractLsb' (8 * (i.val - 8)) 8 := by
  rw [extractByte, fromHalves, BitVec.extractLsb'_append_eq_of_le (by omega), Nat.mul_sub]

/-- Settles O19: the lanes are the two halves of the append, and the two blocks agree byte by byte. -/
theorem lanesOfHalves : Obligations.LanesOfHalves := by
  unfold Obligations.LanesOfHalves
  intro h l
  refine ⟨extractLane64_zero_fromHalves h l, extractLane64_one_fromHalves h l, block_ext_bytes fun i => ?_,
    extractLane64_zero_fromHalves l l, extractLane64_one_fromHalves l l⟩
  rw [extractByte_blockOfBytes]
  split
  next hlow => exact extractByte_fromHalves_of_lt hlow h l
  next hhigh => exact extractByte_fromHalves_of_le (Nat.le_of_not_lt hhigh) h l

end Sys2Proof.Machine

/-! ### Proofs: the AES engine (spec/41_aes_engine.md) -/

namespace Sys2Proof.Machine

/-! #### The round transforms, byte by byte (R120, R124 to R126) -/

@[simp] theorem extractByte_subBytes (b : Block) (i : Fin 16) : extractByte (subBytes b) i = sbox (extractByte b i) :=
  extractByte_blockOfBytes _ i

@[simp] theorem extractByte_shiftRows (b : Block) (i : Fin 16) :
    extractByte (shiftRows b) i = extractByte b (shiftRowsSource i) :=
  extractByte_blockOfBytes _ i

/-- R125 in rows and columns. -/
theorem shiftRowsSource_row_column :
    ∀ r c : Fin 4, shiftRowsSource (Fin.ofNat 16 (r.val + 4 * c.val)) =
      Fin.ofNat 16 (r.val + 4 * ((c.val + r.val) % 4)) := by decide

/-- R120: row `k mod 4` of column `c`. -/
theorem stateByte_eq (b : Block) (k c : Nat) : stateByte b k c = extractByte b (Fin.ofNat 16 (4 * c + k % 4)) := by
  rw [stateByte, Nat.add_comm]

/-- R126: the four rows of a column are one formula, its indices taken modulo 4. -/
theorem extractByte_mixColumns (b : Block) (c : Fin 4) {r : Nat} (hr : r < 4) :
    extractByte (mixColumns b) (Fin.ofNat 16 (4 * c.val + r)) =
      gmul (stateByte b r c.val) 2 ^^^ gmul (stateByte b (r + 1) c.val) 3 ^^^
        stateByte b (r + 2) c.val ^^^ stateByte b (r + 3) c.val := by
  have hi : (Fin.ofNat 16 (4 * c.val + r)).val = 4 * c.val + r := by
    rw [Fin.val_ofNat]
    omega
  have hrow : (4 * c.val + r) % 4 = r := by omega
  have hcolumn : (4 * c.val + r) / 4 = c.val := by omega
  rw [mixColumns, extractByte_blockOfBytes, hi, hrow, hcolumn]
  rfl

/-- Settles O20: each transform is a block made of bytes, and MixColumns's one formula gives its four rows. -/
theorem roundTransformsByteByByte : Obligations.RoundTransformsByteByByte := by
  unfold Obligations.RoundTransformsByteByByte
  intro b
  refine ⟨extractByte_subBytes b, fun r c => ?_, fun c => ?_⟩
  · rw [extractByte_shiftRows, shiftRowsSource_row_column]
  · have row (r : Nat) (hr : r < 4) := extractByte_mixColumns b c hr
    simp only [stateByte_eq] at row
    exact ⟨row 0 (by decide), (row 1 (by decide)).trans (by ac_rfl), (row 2 (by decide)).trans (by ac_rfl),
      (row 3 (by decide)).trans (by ac_rfl)⟩

/-! #### The field product (R121, R122) -/

/-- A byte added under the sum of two conditions is added under each of them. -/
theorem ite_xor (p q : Bool) (a : Byte) :
    (if p ^^ q then a else 0#8) = (if p then a else 0#8) ^^^ (if q then a else 0#8) := by
  cases p <;> cases q <;> simp

theorem xtime_xor (a b : Byte) : xtime (a ^^^ b) = xtime a ^^^ xtime b := by
  simp only [xtime, BitVec.shiftLeft_xor_distrib, BitVec.getLsbD_xor, ite_xor]
  ac_rfl

/-- One round of R122's loop, the bit of `b` kept apart from the running product. -/
theorem gmulLoop_succ (n : Nat) (a b r : Byte) :
    gmulLoop (n + 1) a b r = gmulLoop n (xtime a) (b >>> 1) (r ^^^ if b.getLsbD 0 then a else 0#8) := by
  rw [gmulLoop]
  congr 1
  split
  · rfl
  · exact BitVec.xor_zero.symm

/-- Every round keeps two sums apart, each with its own running product. -/
theorem gmulLoop_xor_left (n : Nat) (a a' b r r' : Byte) :
    gmulLoop n (a ^^^ a') b (r ^^^ r') = gmulLoop n a b r ^^^ gmulLoop n a' b r' := by
  induction n generalizing a a' b r r' with
  | zero => rfl
  | succ n ih =>
    simp only [gmulLoop_succ, xtime_xor, ← ih]
    congr 1
    split
    · ac_rfl
    · simp only [BitVec.xor_zero]

theorem gmulLoop_xor_right (n : Nat) (a b b' r r' : Byte) :
    gmulLoop n a (b ^^^ b') (r ^^^ r') = gmulLoop n a b r ^^^ gmulLoop n a b' r' := by
  induction n generalizing a b b' r r' with
  | zero => rfl
  | succ n ih =>
    simp only [gmulLoop_succ, BitVec.ushiftRight_xor_distrib, BitVec.getLsbD_xor, ite_xor, ← ih]
    congr 1
    ac_rfl

theorem gmul_xor_left (a b c : Byte) : gmul (a ^^^ b) c = gmul a c ^^^ gmul b c :=
  gmulLoop_xor_left 8 a b c 0 0

theorem gmul_xor_right (a b c : Byte) : gmul a (b ^^^ c) = gmul a b ^^^ gmul a c :=
  gmulLoop_xor_right 8 a b c 0 0

/-- With no bit of `b` left the running product is the product. -/
theorem gmulLoop_zero (n : Nat) (a r : Byte) : gmulLoop n a 0#8 r = r := by
  induction n generalizing a with
  | zero => rfl
  | succ n ih => exact ih (xtime a)

theorem gmul_one (a : Byte) : gmul a 1 = a :=
  calc gmul a 1 = gmulLoop 7 (xtime a) 0#8 (0#8 ^^^ a) := rfl
    _ = a := by rw [gmulLoop_zero, BitVec.zero_xor]

theorem gmul_two (a : Byte) : gmul a 2 = xtime a :=
  calc gmul a 2 = gmulLoop 6 (xtime (xtime a)) 0#8 (0#8 ^^^ xtime a) := rfl
    _ = xtime a := by rw [gmulLoop_zero, BitVec.zero_xor]

theorem gmul_three (a : Byte) : gmul a 3 = xtime a ^^^ a :=
  calc gmul a 3 = gmul a 2 ^^^ gmul a 1 := gmul_xor_right a 2 1
    _ = xtime a ^^^ a := by rw [gmul_two, gmul_one]

/-- Settles O21: the loop is linear in each factor, and for a factor below 4 its last six rounds add nothing. -/
theorem fieldProductIsLinear : Obligations.FieldProductIsLinear := by
  unfold Obligations.FieldProductIsLinear
  exact fun a b c => ⟨gmul_xor_right a b c, gmul_xor_left a b c, gmul_one a, gmul_two a, gmul_three a⟩

/-! #### The S-box (R123) -/

/-- The affine map of R123 on whole bytes, its shifted indices written as rotations. -/
def sboxAffine (y : Byte) : Byte :=
  y ^^^ y.rotateLeft 4 ^^^ y.rotateLeft 3 ^^^ y.rotateLeft 2 ^^^ y.rotateLeft 1 ^^^ 0x63#8

/-- The affine map undone. -/
def sboxAffineInv (z : Byte) : Byte :=
  z.rotateLeft 6 ^^^ z.rotateLeft 3 ^^^ z.rotateLeft 1 ^^^ 0x05#8

/-- A rotation of a byte moves its bits up, indices modulo 8. -/
theorem getLsbD_rotateLeft_byte (y : Byte) (i : Fin 8) {k : Nat} (hk : k < 8) :
    (y.rotateLeft k).getLsbD i.val = y.getLsbD ((i.val + (8 - k)) % 8) := by
  rw [BitVec.getLsbD_rotateLeft_of_le hk]
  by_cases hlow : i.val < k
  · rw [decide_eq_true hlow, cond_true]
    congr 1
    omega
  · rw [decide_eq_false hlow, cond_false, decide_eq_true i.isLt, Bool.true_and]
    congr 1
    omega

/-- R123's words for the affine map, bit by bit. -/
theorem getLsbD_sboxAffine (y : Byte) (i : Fin 8) :
    (sboxAffine y).getLsbD i.val =
      (y.getLsbD i.val ^^ y.getLsbD ((i.val + 4) % 8) ^^ y.getLsbD ((i.val + 5) % 8) ^^
        y.getLsbD ((i.val + 6) % 8) ^^ y.getLsbD ((i.val + 7) % 8) ^^ (0x63#8).getLsbD i.val) := by
  simp only [sboxAffine, BitVec.getLsbD_xor]
  rw [getLsbD_rotateLeft_byte y i (k := 4) (by decide), getLsbD_rotateLeft_byte y i (k := 3) (by decide),
    getLsbD_rotateLeft_byte y i (k := 2) (by decide), getLsbD_rotateLeft_byte y i (k := 1) (by decide)]

/-- The two affine maps are inverse, checked on every byte. -/
theorem sboxAffine_sboxAffineInv : ∀ z : Byte, sboxAffine (sboxAffineInv z) = z := by decide +kernel

/-- The whole table, entry by entry: with the affine map undone, an entry is the inverse in the field. -/
theorem gmul_sboxAffineInv_sbox : ∀ x : Byte, x ≠ 0#8 → gmul x (sboxAffineInv (sbox x)) = 1#8 := by
  decide +kernel

/-- Settles O22: the inverse is the table's entry with the affine map undone. -/
theorem sboxIsAffineOfInverse : Obligations.SboxIsAffineOfInverse := by
  unfold Obligations.SboxIsAffineOfInverse
  intro x
  refine ⟨sboxAffineInv (sbox x), ?_, fun i => ?_⟩
  · by_cases hx : x = 0#8
    · subst hx
      exact .inl ⟨rfl, by decide⟩
    · exact .inr ⟨hx, gmul_sboxAffineInv_sbox x hx⟩
  · rw [← getLsbD_sboxAffine, sboxAffine_sboxAffineInv]

/-! #### The key schedule (R128 to R131) -/

/-- Past the lower part of an append only the upper part is left. -/
theorem extractLsb'_add_append {v w : Nat} (hi : BitVec v) (lo : BitVec w) (start len : Nat) :
    (hi ++ lo).extractLsb' (start + w) len = hi.extractLsb' start len := by
  rw [BitVec.extractLsb'_append_eq_of_le (Nat.le_add_left w start), Nat.add_sub_cancel]

/-- Four equal parts of an append: the bytes of a word, the words of a block. -/
theorem extractLsb'_append_four {n : Nat} (a3 a2 a1 a0 : BitVec n) :
    (a3 ++ a2 ++ a1 ++ a0).extractLsb' 0 n = a0 ∧ (a3 ++ a2 ++ a1 ++ a0).extractLsb' n n = a1 ∧
      (a3 ++ a2 ++ a1 ++ a0).extractLsb' (n + n) n = a2 ∧ (a3 ++ a2 ++ a1 ++ a0).extractLsb' (n + n + n) n = a3 := by
  refine ⟨BitVec.extractLsb'_append_eq_right, ?_, ?_, ?_⟩
  · rw [BitVec.extractLsb'_append_eq_of_le (Nat.le_refl n), Nat.sub_self]
    exact BitVec.extractLsb'_append_eq_right
  · rw [extractLsb'_add_append, BitVec.extractLsb'_append_eq_of_le (Nat.le_refl n), Nat.sub_self]
    exact BitVec.extractLsb'_append_eq_right
  · rw [extractLsb'_add_append, extractLsb'_add_append]
    exact BitVec.extractLsb'_append_eq_left

/-- A word is its four bytes (R129). -/
theorem append_wordBytes (w : BitVec 32) :
    w.extractLsb' 24 8 ++ w.extractLsb' 16 8 ++ w.extractLsb' 8 8 ++ w.extractLsb' 0 8 = w := by
  rw [BitVec.extractLsb'_append_extractLsb'_eq_extractLsb' (by decide),
    BitVec.extractLsb'_append_extractLsb'_eq_extractLsb' (by decide),
    BitVec.extractLsb'_append_extractLsb'_eq_extractLsb' (by decide)]
  exact BitVec.extractLsb'_eq_self

/-- R129: the rotation takes byte 0 to the top. -/
theorem rotWord_append (b3 b2 b1 b0 : Byte) : rotWord (b3 ++ b2 ++ b1 ++ b0) = b0 ++ b3 ++ b2 ++ b1 := by
  have hlow : (b3 ++ b2 ++ b1 ++ b0).extractLsb' 0 8 = b0 := BitVec.extractLsb'_append_eq_right
  have hhigh : (b3 ++ b2 ++ b1 ++ b0).extractLsb' 8 24 = b3 ++ b2 ++ b1 := BitVec.extractLsb'_append_eq_left
  rw [rotWord, hlow, hhigh, BitVec.append_assoc', BitVec.append_assoc']
  rfl

/-- R129: SubWord of a word written as its four bytes. -/
theorem subWord_append (b3 b2 b1 b0 : Byte) :
    subWord (b3 ++ b2 ++ b1 ++ b0) = sbox b3 ++ sbox b2 ++ sbox b1 ++ sbox b0 := by
  obtain ⟨h0, h1, h2, h3⟩ := extractLsb'_append_four b3 b2 b1 b0
  rw [subWord, h0, h1, h2, h3]

/-- R131: the schedule's recurrence, at each of its ten steps. -/
theorem keySchedule_succ (key : Block) :
    ∀ r (h : r < 10), (keySchedule key)[r + 1] = keyExpandStep (keySchedule key)[r] (r + 1)
  | 0, _ | 1, _ | 2, _ | 3, _ | 4, _ | 5, _ | 6, _ | 7, _ | 8, _ | 9, _ => rfl

/-- R128: each round constant is `xtime` of the one before. -/
theorem rcon_succ : ∀ r < 10, 1 ≤ r → rcon (r + 1) = xtime (rcon r) := by decide

/-- R129: RotWord byte by byte. -/
theorem extractLsb'_rotWord (w : BitVec 32) :
    (rotWord w).extractLsb' 0 8 = w.extractLsb' 8 8 ∧ (rotWord w).extractLsb' 8 8 = w.extractLsb' 16 8 ∧
    (rotWord w).extractLsb' 16 8 = w.extractLsb' 24 8 ∧ (rotWord w).extractLsb' 24 8 = w.extractLsb' 0 8 := by
  have h := rotWord_append (w.extractLsb' 24 8) (w.extractLsb' 16 8) (w.extractLsb' 8 8) (w.extractLsb' 0 8)
  rw [append_wordBytes] at h
  rw [h]
  exact extractLsb'_append_four _ _ _ _

/-- R129: SubWord byte by byte. -/
theorem extractLsb'_subWord (w : BitVec 32) (i : Fin 4) :
    (subWord w).extractLsb' (8 * i.val) 8 = sbox (w.extractLsb' (8 * i.val) 8) := by
  obtain ⟨h0, h1, h2, h3⟩ := extractLsb'_append_four (sbox (w.extractLsb' 24 8)) (sbox (w.extractLsb' 16 8))
    (sbox (w.extractLsb' 8 8)) (sbox (w.extractLsb' 0 8))
  match i with
  | 0 => exact h0
  | 1 => exact h1
  | 2 => exact h2
  | 3 => exact h3

/-- R129: the two word operations commute, for one moves bytes and the other changes each in place. -/
theorem subWord_rotWord (w : BitVec 32) : subWord (rotWord w) = rotWord (subWord w) := by
  rw [← append_wordBytes w, rotWord_append, subWord_append, subWord_append, rotWord_append]

/-- R130: each new word is the old word plus the new word before it, the first plus `t`. -/
theorem blockWord_keyExpandStep (p : Block) (r : Nat) :
    let t := subWord (rotWord (blockWord p 3)) ^^^ (rcon r).setWidth 32
    blockWord (keyExpandStep p r) 0 = blockWord p 0 ^^^ t ∧
    blockWord (keyExpandStep p r) 1 = blockWord p 1 ^^^ (blockWord p 0 ^^^ t) ∧
    blockWord (keyExpandStep p r) 2 = blockWord p 2 ^^^ (blockWord p 1 ^^^ (blockWord p 0 ^^^ t)) ∧
    blockWord (keyExpandStep p r) 3 = blockWord p 3 ^^^ (blockWord p 2 ^^^ (blockWord p 1 ^^^ (blockWord p 0 ^^^ t))) :=
  extractLsb'_append_four _ _ _ _

/-- Settles O23: R130's words opened up, and the word operations on a word's four bytes. -/
theorem keyScheduleWordByWord : Obligations.KeyScheduleWordByWord := by
  unfold Obligations.KeyScheduleWordByWord
  refine ⟨fun key => ⟨keySchedule_zero key, keySchedule_succ key⟩, fun p r => ?_, by decide,
    fun r hr hlt => rcon_succ r hlt hr, fun w => ?_⟩
  · simpa only [BitVec.xor_assoc] using blockWord_keyExpandStep p r
  · obtain ⟨h0, h1, h2, h3⟩ := extractLsb'_rotWord w
    exact ⟨h0, h1, h2, h3, extractLsb'_subWord w, subWord_rotWord w⟩

/-! #### Encryption (R134) -/

/-- Settles O24: the sequence's recurrence is the round of `encrypt`, so its states are those of the cipher. -/
theorem encryptIsTenRounds : Obligations.EncryptIsTenRounds := by
  unfold Obligations.EncryptIsTenRounds
  intro rk pt st hstart hround
  have hround' (r : Nat) (h : r < 9) : fullRound (st r) rk[r + 1] = st (r + 1) := (hround r h).symm
  have hstart' : addRoundKey pt rk[0] = st 0 := hstart.symm
  calc encrypt rk pt = finalRound (st 9) rk[10] := by
        rw [encrypt, hstart', hround' 0, hround' 1, hround' 2, hround' 3, hround' 4, hround' 5, hround' 6, hround' 7,
          hround' 8]
        all_goals decide
    _ = shiftRows (subBytes (st 9)) ^^^ rk[10] := rfl

/-! #### ENG.KEY, ENG.ENC and ENG.CTR (R140 to R142) -/

/-- Settles O25: ENG.KEY has one outcome. -/
theorem engKeyReplacesTheSchedule : Obligations.EngKeyReplacesTheSchedule := by
  unfold Obligations.EngKeyReplacesTheSchedule
  exact fun s => execEngKey_eq_next.2 rfl

/-- Settles O26: ENG.ENC has one outcome, its lanes written as bit ranges. -/
theorem engEncEncryptsOneBlock : Obligations.EngEncEncryptsOneBlock := by
  unfold Obligations.EngEncEncryptsOneBlock
  exact fun s => execEngEnc_eq_next.2 rfl

/-- R142, R138: byte `m` of block `i` of what ENG.CTR writes. -/
theorem engCtrBytes_getElem? {s : State} {i : Nat} (hi : i < State.opB s) (m : Fin 16) :
    (engCtrBytes s)[16 * i + m.val]? =
      some (extractByte (encrypt s.engRk (ctrBlock (BitVec.ofNat 64 ((State.opA s + i) % 2 ^ 64)))) m) := by
  have hblock : (16 * i + m.val) / 16 = i := by omega
  have hbyte : Fin.ofNat 16 (16 * i + m.val) = m := by
    ext
    rw [Fin.val_ofNat]
    omega
  have hcounter : (State.operands s).argA + BitVec.ofNat 64 i = BitVec.ofNat 64 ((State.opA s + i) % 2 ^ 64) := by
    apply BitVec.eq_of_toNat_eq
    rw [BitVec.toNat_add, BitVec.toNat_ofNat, BitVec.toNat_ofNat, State.opA]
    omega
  rw [engCtrBytes, flatMap_blockBytes_getElem?, hblock, hbyte, encryptCounterRange_getElem? _ _ _ _ hi, hcounter,
    Option.map_some]

/-- R54, R209: a footprint past the top of memory. -/
theorem Params.dmaFault_range {p : Params} {a n : Nat} (hn : 0 < n) (h : 2 ^ p.addrW < a + n) :
    Params.dmaFault p a n = some .dmaRange := by
  rw [Params.dmaFault, if_neg hn.ne', if_pos h]

/-- R54, R209: a footprint that fits but is not admitted. -/
theorem Params.dmaFault_denied {p : Params} {a n : Nat} (hn : 0 < n) (hfit : a + n ≤ 2 ^ p.addrW)
    (hden : Params.admits p a n = false) : Params.dmaFault p a n = some .dmaDenied := by
  rw [Params.dmaFault, if_neg hn.ne', if_neg hfit.not_gt, hden]
  rfl

/-- R142: ENG.CTR faults as its footprint does. -/
theorem execEngCtr_of_dmaFault {s : State} {k : Fault}
    (h : Params.dmaFault s.params (State.dst s) (16 * State.opB s) = some k) : execEngCtr s = .fault k := by
  rw [execEngCtr, h]

/-- Settles O27: the check of the whole footprint decides between the write and the two faults. -/
theorem engCtrWritesTheCounterBlocks : Obligations.EngCtrWritesTheCounterBlocks := by
  unfold Obligations.EngCtrWritesTheCounterBlocks
  intro s
  refine ⟨fun hok => ?_, fun hB hrange => ?_, fun hB hfit hdenied => ?_⟩
  · have hnone : Params.dmaFault s.params (State.dst s) (16 * State.opB s) = none :=
      Params.dmaFault_eq_none.2 (hok.imp_left fun hB => by rw [hB])
    refine ⟨_, execEngCtr_eq_next.2 ⟨hnone, rfl⟩, rfl, fun i m hi => ?_, fun x hx => ?_⟩
    · have hin : 16 * i + m.val < 16 * State.opB s := by omega
      refine (Memory.get?_writeBytes s.mem (State.dst s) (engCtrBytes s) _).trans ?_
      rw [engCtrBytes_length, if_pos (by omega), Nat.add_assoc, Nat.add_sub_cancel_left, engCtrBytes_getElem? hi]
    · exact Memory.get?_writeBytes_of_not_inRange (engCtrBytes_length s) hx
  · exact execEngCtr_of_dmaFault (Params.dmaFault_range (by omega) hrange)
  · exact execEngCtr_of_dmaFault (Params.dmaFault_denied (by omega) hfit hdenied)

end Sys2Proof.Machine

/-! ### Proofs: the keystream (spec/42_keystream.md) -/

namespace Sys2Proof.Machine

/-! #### One refill and many (R162, R178) -/

/-- Byte `m` of the block of counter `c` is keystream byte `16*c + m` (R161); counters are taken modulo `2^64`. -/
theorem ksByte_eq_extractByte (rk : RoundKeys) (c : Nat) (m : Fin 16) :
    ksByte rk (16 * c + m.val) = extractByte (encrypt rk (ctrBlock (BitVec.ofNat 64 (c % 2 ^ 64)))) m := by
  have hblock : (16 * c + m.val) / 16 = c := by omega
  have hbyte : Fin.ofNat 16 (16 * c + m.val) = m := by
    ext
    rw [Fin.val_ofNat]
    omega
  have hcounter : BitVec.ofNat 64 (c % 2 ^ 64) = BitVec.ofNat 64 c := by
    apply BitVec.eq_of_toNat_eq
    rw [BitVec.toNat_ofNat, BitVec.toNat_ofNat, Nat.mod_mod]
  rw [ksByte, hblock, hbyte, hcounter]

/-- R162: byte `m` of block `k` of the buffer that a refill leaves. -/
theorem Gen.refill_buf_getElem? {g : Gen} (hready : g.n ≠ 0#64) {k : Nat} (hk : k < g.n.toNat) (m : Fin 16) :
    (Gen.refill g).1.buf[16 * k + m.val]? =
      some (extractByte (encrypt g.rk (ctrBlock (BitVec.ofNat 64 ((g.ctr.toNat + k) % 2 ^ 64)))) m) := by
  have hlive : 16 * k + m.val < Gen.capacity g := by unfold Gen.capacity; omega
  have hindex : 16 * g.ctr.toNat + (16 * k + m.val) = 16 * (g.ctr.toNat + k) + m.val := by omega
  rw [Gen.refill_of_ready hready]
  simp only [List.getElem?_map, List.getElem?_range hlive, Option.map_some]
  rw [hindex, ksByte_eq_extractByte]

/-- Settles O28: the buffer is the keystream from the old counter on, read block by block. -/
theorem refillEncryptsTheNextBlocks : Obligations.RefillEncryptsTheNextBlocks := by
  unfold Obligations.RefillEncryptsTheNextBlocks
  intro g
  refine ⟨Gen.refill_of_unseeded, fun hready => ⟨(Gen.refill g).1.buf, ?_, ?_, ?_⟩⟩
  · rw [Gen.refill_of_ready hready]
  · rw [Gen.refill_of_ready hready, List.length_map, List.length_range]
    rfl
  · intro k m hk
    exact Gen.refill_buf_getElem? hready hk m

/-- The generator after `k` refills. -/
abbrev Gen.refilled (k : Nat) (g : Gen) : Gen := (fun h : Gen => (Gen.refill h).1)^[k] g

theorem Gen.refilled_succ (k : Nat) (g : Gen) : Gen.refilled (k + 1) g = (Gen.refill (Gen.refilled k g)).1 :=
  Function.iterate_succ_apply' _ k g

@[simp] theorem Gen.refilled_n (k : Nat) (g : Gen) : (Gen.refilled k g).n = g.n := by
  induction k with
  | zero => rfl
  | succ k ih => rw [Gen.refilled_succ, Gen.refill_n, ih]

@[simp] theorem Gen.refilled_rk (k : Nat) (g : Gen) : (Gen.refilled k g).rk = g.rk := by
  induction k with
  | zero => rfl
  | succ k ih => rw [Gen.refilled_succ, Gen.refill_rk, ih]

/-- Every refill moves the counter on by `N`; of an Unseeded generator by none. -/
theorem Gen.refill_ctr (g : Gen) : (Gen.refill g).1.ctr = g.ctr + g.n := by
  by_cases hn : g.n = 0#64
  · rw [Gen.refill_of_unseeded hn, hn, BitVec.add_zero]
  · rw [Gen.refill_of_ready hn]

theorem Gen.refilled_ctr (k : Nat) (g : Gen) :
    (Gen.refilled k g).ctr.toNat = (g.ctr.toNat + k * g.n.toNat) % 2 ^ 64 := by
  induction k with
  | zero => rw [Nat.zero_mul, Nat.add_zero, Nat.mod_eq_of_lt g.ctr.isLt]; rfl
  | succ k ih =>
    rw [Gen.refilled_succ, Gen.refill_ctr, Gen.refilled_n, BitVec.toNat_add, ih, Nat.mod_add_mod, Nat.add_assoc,
      Nat.succ_mul]

/-- Settles O33: refill `i` starts at counter `i*N`, and below `2^64` no counter wraps. -/
theorem refillsUseContiguousCounters : Obligations.RefillsUseContiguousCounters := by
  unfold Obligations.RefillsUseContiguousCounters
  intro g k i j hctr hfit hi hj
  have hready : g.n ≠ 0#64 := by
    intro h0
    rw [h0] at hj
    exact Nat.not_lt_zero j hj
  have hlt : i * g.n.toNat + j < 2 ^ 64 :=
    calc i * g.n.toNat + j < i * g.n.toNat + g.n.toNat := Nat.add_lt_add_left hj _
      _ = (i + 1) * g.n.toNat := (Nat.succ_mul _ _).symm
      _ ≤ k * g.n.toNat := Nat.mul_le_mul_right _ hi
      _ ≤ 2 ^ 64 := hfit
  have hcounter : ((Gen.refilled i g).ctr.toNat + j) % 2 ^ 64 = i * g.n.toNat + j := by
    rw [Gen.refilled_ctr, hctr, BitVec.toNat_zero, Nat.zero_add, Nat.mod_add_mod, Nat.mod_eq_of_lt hlt]
  refine ⟨hcounter, Gen.refilled_n i g, Gen.refilled_rk i g, fun m => ?_⟩
  have hbyte := Gen.refill_buf_getElem? (g := Gen.refilled i g) (by simpa using hready) (by simpa using hj) m
  rwa [hcounter, Gen.refilled_rk, ← Gen.refilled_succ] at hbyte

/-! #### The generator a number of bytes on (R164, R166) -/

/-- The generator with its cursor at `t`. -/
def Gen.withCursor (g : Gen) (t : Nat) : Gen := { g with cursor := BitVec.ofNat 64 t }

@[simp] theorem Gen.withCursor_withCursor (g : Gen) (t u : Nat) :
    Gen.withCursor (Gen.withCursor g t) u = Gen.withCursor g u := rfl

theorem Gen.withCursor_toNat (g : Gen) : Gen.withCursor g g.cursor.toNat = g := by
  rw [Gen.withCursor, BitVec.ofNat_toNat, BitVec.setWidth_eq]

/-- A refill does not read the cursor. Only a refill that is refused keeps it. -/
theorem Gen.refill_withCursor (g : Gen) (t u : Nat) :
    Gen.withCursor (Gen.refill (Gen.withCursor g t)).1 u = Gen.withCursor (Gen.refill g).1 u := by
  by_cases hn : g.n = 0#64
  · have hn' : (Gen.withCursor g t).n = 0#64 := hn
    rw [Gen.refill_of_unseeded hn, Gen.refill_of_unseeded hn', Gen.withCursor_withCursor]
  · have hn' : (Gen.withCursor g t).n ≠ 0#64 := hn
    rw [Gen.refill_of_ready hn, Gen.refill_of_ready hn']
    rfl

theorem Gen.refilled_withCursor (k : Nat) (g : Gen) (t u : Nat) :
    Gen.withCursor (Gen.refilled k (Gen.withCursor g t)) u = Gen.withCursor (Gen.refilled k g) u := by
  induction k generalizing u with
  | zero => rfl
  | succ k ih => rw [Gen.refilled_succ, Gen.refilled_succ, ← Gen.refill_withCursor _ 0, ih, Gen.refill_withCursor]

/-- R166: the generator whose cursor stands `t` bytes past the first byte of `g`'s buffer, with the refills that lie
between. -/
def Gen.after (g : Gen) (t : Nat) : Gen :=
  Gen.withCursor (Gen.refilled (t / Gen.capacity g) g) (t % Gen.capacity g)

@[simp] theorem Gen.after_n (g : Gen) (t : Nat) : (Gen.after g t).n = g.n := Gen.refilled_n _ g

@[simp] theorem Gen.after_rk (g : Gen) (t : Nat) : (Gen.after g t).rk = g.rk := Gen.refilled_rk _ g

@[simp] theorem Gen.after_capacity (g : Gen) (t : Nat) : Gen.capacity (Gen.after g t) = Gen.capacity g := by
  simp only [Gen.capacity, Gen.after_n]

/-- Within the buffer no refill lies between. -/
theorem Gen.after_of_lt {g : Gen} {t : Nat} (h : t < Gen.capacity g) : Gen.after g t = Gen.withCursor g t := by
  rw [Gen.after, Nat.div_eq_of_lt h, Nat.mod_eq_of_lt h]
  rfl

/-- At the buffer's end lies one. -/
theorem Gen.after_capacity_eq_refill {g : Gen} (hready : g.n ≠ 0#64) :
    Gen.after g (Gen.capacity g) = (Gen.refill g).1 := by
  have hpos := Gen.capacity_pos hready
  rw [Gen.after, Nat.div_self (by omega), Nat.mod_self]
  change Gen.withCursor (Gen.refill g).1 0 = (Gen.refill g).1
  rw [Gen.refill_of_ready hready]
  rfl

/-- R165's `if GEN.cursor = 16*N: Refill()` leaves the generator where its cursor says. -/
theorem Gen.refillIfExhausted_eq_after {g : Gen} (hready : g.n ≠ 0#64) (hcursor : g.cursor.toNat ≤ Gen.capacity g) :
    Gen.refillIfExhausted g = Gen.after g g.cursor.toNat := by
  unfold Gen.refillIfExhausted Gen.exhausted
  by_cases hend : Gen.capacity g ≤ g.cursor.toNat
  · rw [decide_eq_true hend, if_pos rfl, Nat.le_antisymm hcursor hend, Gen.after_capacity_eq_refill hready]
  · rw [decide_eq_false hend, if_neg (by decide), Gen.after_of_lt (Nat.lt_of_not_le hend), Gen.withCursor_toNat]

/-- `after` counts from the first byte of the buffer, so the cursor does not matter. -/
theorem Gen.after_withCursor (g : Gen) (t u : Nat) : Gen.after (Gen.withCursor g t) u = Gen.after g u :=
  Gen.refilled_withCursor _ g t _

/-- The bytes left over from whole buffers stand before the cursor (R166). -/
theorem Gen.after_after {g : Gen} (hready : g.n ≠ 0#64) (t u : Nat) :
    Gen.after (Gen.after g t) (t % Gen.capacity g + u) = Gen.after g (t + u) := by
  have hpos : 0 < Gen.capacity g := Nat.lt_of_lt_of_le (by decide) (Gen.capacity_pos hready)
  have hrefills : (t % Gen.capacity g + u) / Gen.capacity g + t / Gen.capacity g = (t + u) / Gen.capacity g := by
    conv_rhs => rw [← Nat.mod_add_div t (Gen.capacity g), Nat.add_right_comm, Nat.add_mul_div_left _ _ hpos]
  rw [Gen.after, Gen.after_capacity, Nat.mod_add_mod, Gen.after, Gen.refilled_withCursor, Gen.refilled, Gen.refilled,
    ← Function.iterate_add_apply, hrefills]
  rfl

theorem Gen.mod_capacity_lt {g : Gen} (hready : g.n ≠ 0#64) (t : Nat) : t % Gen.capacity g < Gen.capacity g :=
  Nat.mod_lt t (Nat.lt_of_lt_of_le (by decide) (Gen.capacity_pos hready))

theorem Gen.after_cursor {g : Gen} (hready : g.n ≠ 0#64) (hsize : g.n.toNat ≤ 2 ^ 32) (t : Nat) :
    (Gen.after g t).cursor.toNat = t % Gen.capacity g := by
  have hlt := Gen.mod_capacity_lt hready t
  change (BitVec.ofNat 64 (t % Gen.capacity g)).toNat = t % Gen.capacity g
  rw [BitVec.toNat_ofNat]
  unfold Gen.capacity at hlt ⊢
  omega

theorem Gen.after_ctr (g : Gen) (t : Nat) :
    (Gen.after g t).ctr.toNat = (g.ctr.toNat + t / Gen.capacity g * g.n.toNat) % 2 ^ 64 := Gen.refilled_ctr _ g

/-- R164: `t` bytes past the buffer's first byte, the stream position is `t` past its index, modulo the stream's period:
the counter wraps at `2^64` blocks of 16 bytes. -/
theorem Gen.streamPos_after {g : Gen} (hready : g.n ≠ 0#64) (hsize : g.n.toNat ≤ 2 ^ 32) (t : Nat) :
    Gen.streamPos (Gen.after g t) % 2 ^ 68 = (Gen.bufBase g + t) % 2 ^ 68 := by
  have hsplit : 16 * (t / Gen.capacity g * g.n.toNat) + t % Gen.capacity g = t := by
    conv_rhs => rw [← Nat.div_add_mod t (Gen.capacity g)]
    rw [Nat.mul_comm _ g.n.toNat, ← Nat.mul_assoc]
    rfl
  rw [Gen.streamPos, Gen.after_cursor hready hsize, Gen.bufBase, Gen.bufBase, BitVec.toNat_sub, BitVec.toNat_sub,
    Gen.after_ctr, Gen.after_n]
  have hctr := g.ctr.isLt
  omega

/-- R164: counted from the cursor, the stream position moves on by as many bytes. -/
theorem Gen.streamPos_after_cursor_add {g : Gen} (hready : g.n ≠ 0#64) (hsize : g.n.toNat ≤ 2 ^ 32) (len : Nat) :
    Gen.streamPos (Gen.after g (g.cursor.toNat + len)) % 2 ^ 68 = (Gen.streamPos g + len) % 2 ^ 68 := by
  rw [Gen.streamPos_after hready hsize, Gen.streamPos, Nat.add_assoc]

/-! #### The bytes handed out (R161, R164, R165) -/

@[simp] theorem keystream_length (rk : RoundKeys) (j n : Nat) : (Claims.keystream rk j n).length = n := by
  rw [Claims.keystream, List.length_map, List.length_range]

theorem keystream_getElem? {rk : RoundKeys} {j n i : Nat} (h : i < n) :
    (Claims.keystream rk j n)[i]? = some (ksByte rk (j + i)) := by
  rw [Claims.keystream, List.getElem?_map, List.getElem?_range h, Option.map_some]

theorem keystream_append (rk : RoundKeys) (j m n : Nat) :
    Claims.keystream rk j (m + n) = Claims.keystream rk j m ++ Claims.keystream rk (j + m) n := by
  simp only [Claims.keystream, List.range_add, List.map_append, List.map_map, Function.comp_def, Nat.add_assoc]

theorem keystream_take (rk : RoundKeys) (j m n : Nat) :
    (Claims.keystream rk j n).take m = Claims.keystream rk j (min m n) := by
  rw [Claims.keystream, ← List.map_take, List.take_range]
  rfl

/-- The stream has the period of its bytes. -/
theorem keystream_congr {rk : RoundKeys} {j k : Nat} (h : j % 2 ^ 68 = k % 2 ^ 68) (n : Nat) :
    Claims.keystream rk j n = Claims.keystream rk k n :=
  List.map_congr_left fun i _ => ksByte_congr (by omega)

/-- A live byte of the buffer is the keystream's (R38 point 3). -/
theorem Gen.buf_getElem?_of_inv {nmax : Nat} {g : Gen} (hinv : Gen.inv nmax g) {j : Nat} (hj : j < Gen.capacity g) :
    g.buf[j]? = some (ksByte g.rk (Gen.bufBase g + j)) := by
  obtain ⟨-, -, -, -, hbuf⟩ := hinv
  rw [hbuf, List.getElem?_map, List.getElem?_range hj, Option.map_some]

/-- What one iteration of R165 copies: the keystream from the stream position on. -/
theorem Gen.slice_chunk {nmax : Nat} {g : Gen} (hinv : Gen.inv nmax g) (rem : Nat) :
    Gen.slice g g.cursor.toNat (Gen.chunk g rem) = Claims.keystream g.rk (Gen.streamPos g) (Gen.chunk g rem) := by
  obtain ⟨-, -, hcursor, -, hbuf⟩ := hinv
  exact Gen.slice_eq_keystream hbuf (by unfold Gen.chunk; omega)

/-- What one iteration of R165 leaves: the generator as many bytes on as it copies. -/
theorem Gen.refillIfExhausted_advance_chunk {nmax : Nat} {g : Gen} (hinv : Gen.inv nmax g) (hmax : nmax ≤ 2 ^ 32)
    (hready : g.n ≠ 0#64) (rem : Nat) :
    Gen.refillIfExhausted (Gen.advance g (Gen.chunk g rem)) = Gen.after g (g.cursor.toNat + Gen.chunk g rem) := by
  have hinv' := Gen.inv_advance_chunk hinv hmax rem
  obtain ⟨hn, -, hcursor, -, -⟩ := hinv
  obtain ⟨-, -, hcursor', -, -⟩ := hinv'
  have hto : (Gen.advance g (Gen.chunk g rem)).cursor.toNat = g.cursor.toNat + Gen.chunk g rem := by
    rw [Gen.advance_cursor, BitVec.toNat_ofNat]
    unfold Gen.chunk Gen.capacity
    unfold Gen.capacity at hcursor
    omega
  rw [Gen.refillIfExhausted_eq_after (by simpa using hready) hcursor', hto]
  exact Gen.after_withCursor g _ _

/-- The loop of R165, whatever its bound: what it has handed out when it ends is the keystream from the stream position
on, and the generator it leaves stands that many bytes on. The bound must allow the iteration in which an exhausted
buffer is refilled. -/
theorem Gen.consumeLoop_eq {nmax fuel rem : Nat} {g : Gen} (hinv : Gen.inv nmax g) (hmax : nmax ≤ 2 ^ 32)
    (hready : g.n ≠ 0#64) (hstart : 0 < fuel ∨ g.cursor.toNat < Gen.capacity g) :
    ∃ len, Gen.consumeLoop fuel rem g =
      (Claims.keystream g.rk (Gen.streamPos g) len, Gen.after g (g.cursor.toNat + len)) := by
  induction fuel generalizing rem g with
  | zero =>
    refine ⟨0, ?_⟩
    rw [Nat.add_zero, Gen.after_of_lt (hstart.resolve_left (Nat.lt_irrefl 0)), Gen.withCursor_toNat]
    rfl
  | succ fuel ih =>
    have hsize : g.n.toNat ≤ 2 ^ 32 := hinv.1.trans hmax
    have hnext := Gen.refillIfExhausted_advance_chunk hinv hmax hready rem
    have hinv' : Gen.inv nmax (Gen.after g (g.cursor.toNat + Gen.chunk g rem)) := by
      rw [← hnext]
      exact Gen.inv_refillIfExhausted (Gen.inv_advance_chunk hinv hmax rem)
    simp only [Gen.consumeLoop, hnext, Gen.slice_chunk hinv]
    split
    · exact ⟨_, rfl⟩
    · have hcursor := Gen.after_cursor hready hsize (g.cursor.toNat + Gen.chunk g rem)
      have hunread := Gen.mod_capacity_lt hready (g.cursor.toNat + Gen.chunk g rem)
      have hpos := Gen.streamPos_after_cursor_add hready hsize (Gen.chunk g rem)
      obtain ⟨len, hlen⟩ := ih (rem := rem - Gen.chunk g rem) hinv' (by simpa using hready)
        (.inr (by rwa [hcursor, Gen.after_capacity]))
      refine ⟨Gen.chunk g rem + len, ?_⟩
      rw [hlen, Gen.after_rk, keystream_append, keystream_congr hpos, hcursor, Gen.after_after hready, Nat.add_assoc]

/-- R165, R166: `Consume(L)` in closed form. -/
theorem Gen.consume_eq {nmax : Nat} {g : Gen} (hinv : Gen.inv nmax g) (hmax : nmax ≤ 2 ^ 32) (hready : g.n ≠ 0#64)
    (len : Nat) :
    Gen.consume g len = (Claims.keystream g.rk (Gen.streamPos g) len, Gen.after g (g.cursor.toNat + len)) := by
  obtain ⟨n, hn⟩ := Gen.consumeLoop_eq (fuel := len + 1) (rem := len) hinv hmax hready (.inl (Nat.succ_pos len))
  have hlen : n = len := by
    rw [← Gen.consume_length hready len, Gen.consume, hn, keystream_length]
  rw [Gen.consume, hn, hlen]

/-- Settles O29: the closed form, its refills and its cursor read off. -/
theorem consumeClosedForm : Obligations.ConsumeClosedForm := by
  unfold Obligations.ConsumeClosedForm
  intro nmax g len hmax hinv hready
  have hsize : g.n.toNat ≤ 2 ^ 32 := hinv.1.trans hmax
  have hcursor := Gen.after_cursor hready hsize (g.cursor.toNat + len)
  rw [Gen.consume_eq hinv hmax hready]
  refine ⟨rfl, rfl, hcursor, Gen.after_ctr g _, Gen.after_n g _, Gen.after_rk g _, ?_⟩
  rw [hcursor]
  exact Gen.mod_capacity_lt hready _

/-- Settles O30: the generator left stands `L` bytes on, and the loop keeps the invariant. -/
theorem consumeMovesTheStreamPosition : Obligations.ConsumeMovesTheStreamPosition := by
  unfold Obligations.ConsumeMovesTheStreamPosition
  intro nmax g len hmax hinv hready
  refine ⟨?_, Gen.inv_consume hinv hmax len⟩
  rw [Gen.consume_eq hinv hmax hready]
  exact Gen.streamPos_after_cursor_add hready (hinv.1.trans hmax) len

/-- Settles O31: the bytes and the position afterwards follow from the key and the position alone. -/
theorem keystreamIgnoresBufferSize : Obligations.KeystreamIgnoresBufferSize := by
  unfold Obligations.KeystreamIgnoresBufferSize
  intro nmax g g' len hmax hinv hinv' hready hready' hrk hpos
  obtain ⟨hmoved, -⟩ := consumeMovesTheStreamPosition nmax g len hmax hinv hready
  obtain ⟨hmoved', -⟩ := consumeMovesTheStreamPosition nmax g' len hmax hinv' hready'
  refine ⟨?_, by omega⟩
  rw [Gen.consume_eq hinv hmax hready, Gen.consume_eq hinv' hmax hready', hrk]
  exact keystream_congr hpos len

/-- Settles O32: the keystream and the distance are both split at `a`. -/
theorem consumeSplitsAnywhere : Obligations.ConsumeSplitsAnywhere := by
  unfold Obligations.ConsumeSplitsAnywhere
  intro nmax g a b hmax hinv hready
  obtain ⟨hpos, hinv'⟩ := consumeMovesTheStreamPosition nmax g a hmax hinv hready
  rw [Gen.consume_eq hinv' hmax (by simpa using hready)]
  rw [Gen.consume_eq hinv hmax hready] at hpos ⊢
  rw [Gen.consume_eq hinv hmax hready]
  constructor
  · rw [Gen.after_rk, keystream_append, keystream_congr hpos]
  · rw [Gen.after_cursor hready (hinv.1.trans hmax), Gen.after_after hready, Nat.add_assoc]

/-! #### The gate (R163) -/

/-- Settles O34: each of the six commands asks the gate first, and its outcome there is `finish(NOT_SEEDED)`. -/
theorem unseededCommandsFinishNotSeeded : Obligations.UnseededCommandsFinishNotSeeded := by
  unfold Obligations.UnseededCommandsFinishNotSeeded
  rintro s i hunseeded hwf (rfl | ⟨sz, rfl⟩ | rfl | rfl | rfl | rfl)
  · exact seededGate_of_unseeded hunseeded _
  · have hlegal : ¬4#3 < sz := BitVec.not_lt.2 (of_decide_eq_true hwf)
    exact execGenGetval_eq_next.2 (.inr (.inl ⟨hlegal, hunseeded, rfl⟩))
  · exact seededGate_of_unseeded hunseeded _
  · exact seededGate_of_unseeded hunseeded _
  · exact seededGate_of_unseeded hunseeded _
  · exact seededGate_of_unseeded hunseeded _

/-! #### GEN.SEED, GEN.GETSEED and GEN.RELEASE (R170, R176, R177, R180) -/

/-- The generator that GEN.SEED refills, field by field: the buffer and the cursor are the old ones still. -/
theorem seedTarget_eq (s : State) :
    seedTarget s =
      { s.gen with
        rk := keySchedule (State.blk s)
        n := if s.gen.n = 0#64 then (State.operands s).argA else s.gen.n
        ctr := 0#64 } := by
  unfold seedTarget Gen.sizeIfUnsized
  rw [Gen.rekey_n]
  split <;> rfl

/-- R201: a command that leaves the generator Ready ends with SEEDED = 1. -/
theorem State.finish_of_ready {s : State} (code : ErrCode) (hready : s.gen.n ≠ 0#64) :
    State.finish s code = { s with status := ⟨false, true, s.status.viewValid, code⟩, pend := none } := by
  rw [State.finish, decide_eq_true hready]

/-- Settles O35: GEN.SEED checks the size, and else refills its target, which has no size only if A = 0. -/
theorem seedStartsTheStreamAtCounterZero : Obligations.SeedStartsTheStreamAtCounterZero := by
  unfold Obligations.SeedStartsTheStreamAtCounterZero
  intro s
  refine ⟨fun hunseeded hlarge => ?_, fun hunseeded hA => ?_, fun n hn => ?_⟩
  · exact execGenSeed_eq_next.2 (.inl ⟨⟨hunseeded, hlarge⟩, rfl⟩)
  · have hargA : (State.operands s).argA = s.gen.n := by
      rw [hunseeded]
      exact BitVec.eq_of_toNat_eq hA
    have htarget : (seedTarget s).n = 0#64 := by
      rw [seedTarget_eq, hargA, ite_self, hunseeded]
    refine execGenSeed_eq_next.2 (.inr ⟨fun hsize => by omega, ?_⟩)
    rw [Gen.refill_of_unseeded htarget, seedTarget_eq, hargA, ite_self]
    rfl
  · obtain ⟨hsize, htarget, hpos⟩ : ¬(s.gen.n = 0#64 ∧ s.params.nmax < State.opA s) ∧
        seedTarget s = { s.gen with rk := keySchedule (State.blk s), n := n, ctr := 0#64 } ∧ n ≠ 0#64 := by
      rw [seedTarget_eq]
      rcases hn with ⟨hunseeded, hA, hfit, rfl⟩ | ⟨hready, rfl⟩
      · refine ⟨fun ⟨_, hlarge⟩ => by omega, by rw [if_pos hunseeded], fun hzero => ?_⟩
        rw [State.opA, hzero] at hA
        exact Nat.lt_irrefl 0 hA
      · exact ⟨fun ⟨hunseeded, _⟩ => hready hunseeded, by rw [if_neg hready], hready⟩
    have hready : (seedTarget s).n ≠ 0#64 := by
      rw [htarget]
      exact hpos
    obtain ⟨buf, hrefill, hlen, hbytes⟩ := (refillEncryptsTheNextBlocks (seedTarget s)).2 hready
    rw [htarget] at hlen hbytes
    refine ⟨buf, execGenSeed_eq_next.2 (.inr ⟨hsize, ?_⟩), hlen, fun k m hk => ?_⟩
    · rw [hrefill, htarget, State.finish_of_ready .ok hpos]
      simp only [BitVec.zero_add]
      rfl
    · have hcounter : (0#64).toNat + k = k := Nat.zero_add k
      have hlt : k < 2 ^ 64 := hk.trans n.isLt
      have hbyte := hbytes k m hk
      rwa [hcounter, Nat.mod_eq_of_lt hlt] at hbyte

/-- Settles O41: on a Ready generator GEN.GETSEED has one outcome. -/
theorem getseedReturnsTheKey : Obligations.GetseedReturnsTheKey := by
  unfold Obligations.GetseedReturnsTheKey
  intro s
  exact ⟨fun hunseeded => unseededCommandsFinishNotSeeded s _ hunseeded rfl (by simp),
    fun hready => execGenGetseed_eq_next.2 (.inr ⟨hready, rfl⟩)⟩

/-- Settles O42: GEN.RELEASE has one outcome. -/
theorem releaseLeavesTheGeneratorUnseeded : Obligations.ReleaseLeavesTheGeneratorUnseeded := by
  unfold Obligations.ReleaseLeavesTheGeneratorUnseeded
  exact fun s => ⟨[], execGenRelease_eq_next.2 rfl⟩

/-! #### GEN.GETBYTES and GEN.GETBOOLS (R171, R173) -/

/-- Byte `i` that the two commands write. -/
theorem gotToMemory_get? {nmax : Nat} {s : State} (f : Byte → Byte) (hinv : Gen.inv nmax s.gen) (hmax : nmax ≤ 2 ^ 32)
    (hready : s.gen.n ≠ 0#64) {i : Nat} (hi : i < State.opA s) :
    Memory.get? (gotToMemory s f).mem (State.dst s + i) = some (f (ksByte s.gen.rk (Gen.streamPos s.gen + i))) := by
  have hin : State.dst s ≤ State.dst s + i ∧ State.dst s + i < State.dst s + State.opA s := by omega
  refine (Memory.get?_writeBytes s.mem (State.dst s) _ _).trans ?_
  rw [List.length_map, Gen.consume_length hready, if_pos hin, Nat.add_sub_cancel_left, List.getElem?_map,
    Gen.consume_eq hinv hmax hready, keystream_getElem? hi, Option.map_some]

/-- Beside host memory the two commands change what `Consume(A)` and `finish` change. -/
theorem gotToMemory_eq (s : State) (f : Byte → Byte) :
    gotToMemory s f =
      { s with
        gen := (Gen.consume s.gen (State.opA s)).2
        mem := (gotToMemory s f).mem
        status := Claims.endedStatus s.status s.gen .ok
        pend := none } := by
  rw [Claims.endedStatus, ← Gen.consume_n s.gen (State.opA s)]
  rfl

/-- Outside the footprint the two commands leave host memory as it was. -/
theorem gotToMemory_get?_of_not_inRange {s : State} (f : Byte → Byte) (hready : s.gen.n ≠ 0#64) {x : Nat}
    (hx : ¬ Claims.inRange (State.dst s, State.opA s) x) :
    Memory.get? (gotToMemory s f).mem x = Memory.get? s.mem x :=
  Memory.get?_writeBytes_of_not_inRange (by rw [List.length_map, Gen.consume_length hready]) hx

/-- Where the whole footprint may be written the two commands complete. -/
theorem getToMemory_of_writable {s : State} (f : Byte → Byte) (hready : s.gen.n ≠ 0#64)
    (hfit : State.opA s = 0 ∨ (State.dst s + State.opA s ≤ 2 ^ s.params.addrW ∧
      Params.admits s.params (State.dst s) (State.opA s) = true)) :
    getToMemory s f = .next (gotToMemory s f) :=
  getToMemory_eq_next.2 (.inr ⟨hready, Params.dmaFault_eq_none.2 hfit, rfl⟩)

/-- Settles O36: GEN.GETBYTES writes the bytes as they are. -/
theorem getbytesWritesTheKeystream : Obligations.GetbytesWritesTheKeystream := by
  unfold Obligations.GetbytesWritesTheKeystream
  intro s
  refine ⟨fun hunseeded => unseededCommandsFinishNotSeeded s _ hunseeded rfl (by simp), ?_, ?_, ?_⟩
  · rintro ⟨-, hmax, -, -⟩ hinv hready hfit
    exact ⟨gotToMemory s id, getToMemory_of_writable id hready hfit, gotToMemory_eq s id,
      fun i => gotToMemory_get? id hinv hmax hready, fun x => gotToMemory_get?_of_not_inRange id hready⟩
  · intro hready hA hrange
    exact getToMemory_of_dmaFault id hready (Params.dmaFault_range hA hrange)
  · intro hready hA hfit hdenied
    exact getToMemory_of_dmaFault id hready (Params.dmaFault_denied hA hfit hdenied)

/-- The low bit of a byte (R173, R174). -/
theorem boolByte_eq (b : Byte) : boolByte b = if b.getLsbD 0 then 1#8 else 0#8 := by
  rw [boolByte, BitVec.and_one_eq_setWidth_ofBool_getLsbD]
  cases b.getLsbD 0 <;> rfl

/-- R182: a masked byte is a boolean. -/
theorem boolByte_eq_zero_or_one (b : Byte) : boolByte b = 0#8 ∨ boolByte b = 1#8 := by
  rw [boolByte_eq]
  cases b.getLsbD 0
  · exact .inl rfl
  · exact .inr rfl

/-- Settles O37: GEN.GETBOOLS masks each byte, and a masked byte is 0 or 1. -/
theorem getboolsWritesMaskedKeystream : Obligations.GetboolsWritesMaskedKeystream := by
  unfold Obligations.GetboolsWritesMaskedKeystream
  intro s
  refine ⟨fun hunseeded => unseededCommandsFinishNotSeeded s _ hunseeded rfl (by simp), ?_, ?_, ?_⟩
  · rintro ⟨-, hmax, -, -⟩ hinv hready hfit
    exact ⟨gotToMemory s boolByte, getToMemory_of_writable boolByte hready hfit, gotToMemory_eq s boolByte,
      fun i hi => ⟨_, boolByte_eq_zero_or_one _, rfl, gotToMemory_get? boolByte hinv hmax hready hi⟩,
      fun x => gotToMemory_get?_of_not_inRange boolByte hready⟩
  · intro hready hA hrange
    exact getToMemory_of_dmaFault boolByte hready (Params.dmaFault_range hA hrange)
  · intro hready hA hfit hdenied
    exact getToMemory_of_dmaFault boolByte hready (Params.dmaFault_denied hA hfit hdenied)

/-! #### GEN.GETVAL and GEN.GETBIT (R172, R174) -/

/-- RES_LO of a value is its first eight bytes (R172). -/
theorem valueLo_keystream (rk : RoundKeys) (j n : Nat) :
    valueLo (Claims.keystream rk j n) = BitVec.ofNat 64 (le (Claims.keystream rk j (min n 8))) := by
  rw [valueLo, keystream_take, Nat.min_comm, wordOfBytes]

/-- RES_HI of a value that fits RES_LO is zero (R172). -/
theorem valueHi_of_length_le {v : List Byte} (h : v.length ≤ 8) : valueHi v = 0#64 := by
  rw [valueHi, List.drop_eq_nil_of_le h]
  rfl

/-- RES_HI of a value of 16 bytes is its last eight (R172). -/
theorem valueHi_keystream (rk : RoundKeys) (j : Nat) :
    valueHi (Claims.keystream rk j 16) = BitVec.ofNat 64 (le (Claims.keystream rk (j + 8) 8)) := by
  rw [valueHi, keystream_append rk j 8 8, List.drop_left' (keystream_length rk j 8), keystream_take, Nat.min_self,
    wordOfBytes]

/-- The state after a result has been drawn from the generator, with SEEDED as it was (R172, R174). -/
theorem finish_drawn (s : State) (len : Nat) (lo hi : Word) :
    State.finish (State.setRes { s with gen := (Gen.consume s.gen len).2 } lo hi) .ok =
      { s with
        gen := (Gen.consume s.gen len).2
        resLo := lo
        resHi := hi
        status := Claims.endedStatus s.status s.gen .ok
        pend := none } := by
  rw [Claims.endedStatus, ← Gen.consume_n s.gen len]
  rfl

/-- Settles O38: RES_LO takes the first eight bytes of the value and RES_HI the others, of which only SZ = 4 has any. -/
theorem getvalReturnsTheLittleEndianValue : Obligations.GetvalReturnsTheLittleEndianValue := by
  unfold Obligations.GetvalReturnsTheLittleEndianValue
  intro s sz hsz
  refine ⟨fun hunseeded => unseededCommandsFinishNotSeeded s _ hunseeded (decide_eq_true hsz) (by simp), ?_⟩
  rintro ⟨-, hmax, -, -⟩ hinv hready
  refine execGenGetval_eq_next.2 (.inr (.inr ⟨BitVec.not_lt.2 hsz, hready, ?_⟩))
  have hbytes : (Gen.consume s.gen (valueWidth sz)).1 =
      Claims.keystream s.gen.rk (Gen.streamPos s.gen) (2 ^ sz.toNat) := by
    rw [Gen.consume_eq hinv hmax hready, valueWidth]
  rw [finish_drawn, hbytes, valueLo_keystream, valueWidth]
  split
  · next hwide => rw [hwide, ← valueHi_keystream]; rfl
  · next hnarrow =>
    have hlt : sz.toNat ≤ 3 := by
      have hne : sz.toNat ≠ 4 := fun h => hnarrow (BitVec.eq_of_toNat_eq h)
      have hle : sz.toNat ≤ 4 := hsz
      omega
    rw [valueHi_of_length_le]
    rw [keystream_length]
    exact Nat.pow_le_pow_right (by decide) hlt

/-- Settles O39: the one byte consumed, masked, is the result. -/
theorem getbitReturnsTheLowBit : Obligations.GetbitReturnsTheLowBit := by
  unfold Obligations.GetbitReturnsTheLowBit
  intro s
  refine ⟨fun hunseeded => unseededCommandsFinishNotSeeded s _ hunseeded rfl (by simp), ?_⟩
  rintro ⟨-, hmax, -, -⟩ hinv hready
  have hbyte : (Gen.consume s.gen 1).1 = [ksByte s.gen.rk (Gen.streamPos s.gen)] := by
    rw [Gen.consume_eq hinv hmax hready]
    rfl
  refine execGenGetbit_eq_next.2 (.inr ⟨hready, ?_⟩)
  rw [finish_drawn, hbyte, List.map_singleton, boolByte_eq]
  cases (ksByte s.gen.rk (Gen.streamPos s.gen)).getLsbD 0 <;> rfl

/-! #### GEN.VIEW (R175, R181) -/

/-- R175's `if GEN.cursor = 16*N`: by R34 the cursor is not past the end (log 9). -/
theorem Gen.refillIfExhausted_eq_ite {g : Gen} (hcursor : g.cursor.toNat ≤ Gen.capacity g) :
    Gen.refillIfExhausted g = if g.cursor.toNat = 16 * g.n.toNat then (Gen.refill g).1 else g := by
  have hend : Gen.capacity g ≤ g.cursor.toNat ↔ g.cursor.toNat = 16 * g.n.toNat := by
    unfold Gen.capacity at hcursor ⊢
    omega
  simp only [Gen.refillIfExhausted, Gen.exhausted, hend, decide_eq_true_eq]

/-- Settles O40: on a Ready generator GEN.VIEW has one outcome, and the window is cut to what the buffer still has. -/
theorem viewHandsOutTheRestOfTheBuffer : Obligations.ViewHandsOutTheRestOfTheBuffer := by
  unfold Obligations.ViewHandsOutTheRestOfTheBuffer
  intro s
  refine ⟨fun hunseeded => unseededCommandsFinishNotSeeded s _ hunseeded rfl (by simp), ?_⟩
  rintro - hinv hready g hg len rfl
  obtain ⟨-, -, hcursor, -, -⟩ := id hinv
  rw [← Gen.refillIfExhausted_eq_ite hcursor] at hg
  subst hg
  obtain ⟨-, -, hcursor', -, -⟩ := Gen.inv_refillIfExhausted hinv
  constructor
  · refine execGenView_eq_next.2 (.inr ⟨hready, ?_⟩)
    have hseeded : (Gen.refillIfExhausted s.gen).n ≠ 0#64 := by simpa using hready
    rw [viewed, State.finish_of_ready .ok hseeded]
    rfl
  · unfold Gen.capacity at hcursor'
    omega

/-- A byte of the view is live, and is the keystream's at the stream position that the view begins at. -/
theorem viewed_buf_getElem? {s : State} (hinv : Gen.inv s.params.nmax s.gen) (hmax : s.params.nmax ≤ 2 ^ 32)
    (hready : s.gen.n ≠ 0#64) {i : Nat} (hi : i < (viewed s).viewLen.toNat) :
    (viewed s).gen.buf[(viewed s).viewOff.toNat + i]? = some (ksByte s.gen.rk (Gen.streamPos s.gen + i)) := by
  obtain ⟨hn, -, hcursor, -, -⟩ := id hinv
  have hinv' := Gen.inv_refillIfExhausted hinv
  obtain ⟨-, -, hcursor', -, -⟩ := id hinv'
  have hlen : (viewed s).viewLen.toNat ≤ Gen.chunk (Gen.refillIfExhausted s.gen) (State.opA s) := Nat.mod_le _ _
  have hlive : (Gen.refillIfExhausted s.gen).cursor.toNat + i < Gen.capacity (Gen.refillIfExhausted s.gen) := by
    unfold Gen.chunk at hlen
    omega
  have hpos : Gen.streamPos (Gen.refillIfExhausted s.gen) % 2 ^ 68 = Gen.streamPos s.gen % 2 ^ 68 := by
    rw [Gen.refillIfExhausted_eq_after hready hcursor, Gen.streamPos_after hready (hn.trans hmax), Gen.streamPos]
  refine (Gen.buf_getElem?_of_inv hinv' hlive).trans ?_
  rw [Gen.refillIfExhausted_rk, ← Nat.add_assoc]
  exact congrArg some (ksByte_congr (Nat.ModEq.add_right i hpos))

/-- Settles O50: both bytes are the keystream's at the old stream position plus `i`. -/
theorem viewShowsWhatGetbytesWouldWrite : Obligations.ViewShowsWhatGetbytesWouldWrite := by
  unfold Obligations.ViewShowsWhatGetbytesWouldWrite
  rintro s s' v g ⟨-, hmax, -, -⟩ hinv hready hview hgen hlen hget i hi
  obtain ⟨hunseeded, -⟩ | ⟨-, rfl⟩ := execGenView_eq_next.1 hview
  · exact absurd hunseeded hready
  obtain ⟨hunseeded, -⟩ | ⟨-, -, rfl⟩ := getToMemory_eq_next.1 hget
  · exact absurd (hgen ▸ hunseeded) hready
  refine ⟨_, viewed_buf_getElem? hinv hmax hready hi, ?_⟩
  have hlt : i < State.opA s' := by rwa [State.opA, hlen]
  have hinv' : Gen.inv s.params.nmax s'.gen := by rwa [hgen]
  rw [← hgen] at hready ⊢
  exact gotToMemory_get? id hinv' hmax hready hlt

end Sys2Proof.Machine

/-! ### Proofs: the results and the faults (spec/60_exceptions.md) -/

namespace Sys2Proof.Machine

/-! #### How a command ends (R201, R206) -/

/-- Settles O7: the rule is the definition of `finish`. -/
theorem finishReportsTheCodeAndClearsBusy : Obligations.FinishReportsTheCodeAndClearsBusy := by
  unfold Obligations.FinishReportsTheCodeAndClearsBusy
  exact fun _ _ => rfl

/-- R206: a command that ends with an error has done nothing before `finish`, but for GEN.SEED that found no size. -/
theorem exec_of_error {i : Instr} {s t : State} (h : exec i s = .next t) (herr : t.status.err ≠ .ok) :
    t = State.finish s t.status.err ∨
      (i = .genSeed ∧ (seedTarget s).n = 0#64 ∧ t = State.finish { s with gen := seedTarget s } .notSeeded) := by
  cases exec_performed h with
  | refused => exact .inl rfl
  | unsized _ hnew => exact .inr ⟨rfl, hnew, rfl⟩
  | _ => exact absurd rfl herr

/-- GEN.SEED that finds no size replaces GEN.RK and zeroes GEN.ctr, and no more (R170). -/
theorem seedTarget_of_unsized {s : State} (h : (seedTarget s).n = 0#64) :
    seedTarget s = { s.gen with rk := keySchedule (State.blk s), ctr := 0#64 } := by
  have hunseeded := seedTarget_unseeded h
  have hargA : (State.operands s).argA = s.gen.n := by
    rw [seedTarget_eq] at h
    exact (if_pos hunseeded).symm.trans (h.trans hunseeded.symm)
  rw [seedTarget_eq, hargA, ite_self]

/-- R79: BLK of a pending command is made of the operands it was latched with. -/
theorem State.blk_of_pending {s : State} {p : Pend} (hp : s.pend = some p) :
    State.blk s = fromHalves p.args.argHi p.args.argLo := by
  rw [State.blk, OperandRegs.blk, State.operands, hp]

/-- Settles O44: the ENGINE's turn ends an illegal word by `finish` alone, and a command's errors are those of
`exec_of_error`. -/
theorem errorsChangeOnlyStatus : Obligations.ErrorsChangeOnlyStatus := by
  unfold Obligations.ErrorsChangeOnlyStatus
  intro s t p hbusy hp hturn herr
  rcases engineTurn_eq_next.1 hturn with ⟨hnone, -⟩ | ⟨-, q, -, -, rfl⟩ | ⟨-, q, i, hq, hi, hexec⟩
  · simp [hbusy, hp] at hnone
  · exact .inl rfl
  · obtain rfl : p = q := Option.some.inj (hp.symm.trans hq)
    rcases exec_of_error hexec herr with hfinish | ⟨rfl, hnew, rfl⟩
    · exact .inl (hfinish.trans (finishReportsTheCodeAndClearsBusy s _))
    · refine .inr ⟨hi, rfl, seedTarget_unseeded hnew, ?_⟩
      rw [seedTarget_of_unsized hnew, State.blk_of_pending hp]
      rfl

/-! #### The order of the checks (R209) -/

/-- R54: on a Ready generator each of the two commands that write keystream faults as its footprint does. -/
theorem exec_fault_of_dmaFault {i : Instr} {s : State} {k : Fault} (hi : i = .genGetbytes ∨ i = .genGetbools)
    (hready : s.gen.n ≠ 0#64) (hk : Params.dmaFault s.params (State.dst s) (State.opA s) = some k) :
    exec i s = .fault k := by
  rcases hi with rfl | rfl
  · exact getToMemory_of_dmaFault id hready hk
  · exact getToMemory_of_dmaFault boolByte hready hk

/-- Settles O43: the legal bit decides first, GEN.SEED's size before the refill, the gate before the footprint, and the
footprint's range before its admission. -/
theorem orderOfChecks : Obligations.OrderOfChecks := by
  unfold Obligations.OrderOfChecks
  rintro s _ rfl
  obtain ⟨hlarge, hzero, -⟩ := seedStartsTheStreamAtCounterZero s
  refine ⟨fun p => engineTurn_of_illegal, fun hunseeded hA => ⟨_, hlarge hunseeded hA, rfl⟩,
    fun hunseeded hA => ⟨_, hzero hunseeded hA, rfl⟩, ?_, ?_, ?_⟩
  · rintro hunseeded i (rfl | rfl)
    · exact ⟨_, unseededCommandsFinishNotSeeded s _ hunseeded rfl (by simp), rfl, rfl⟩
    · exact ⟨_, unseededCommandsFinishNotSeeded s _ hunseeded rfl (by simp), rfl, rfl⟩
  · intro hready hA hrange i hi
    exact exec_fault_of_dmaFault hi hready (Params.dmaFault_range hA hrange)
  · intro hready hA hfit hdenied i hi
    exact exec_fault_of_dmaFault hi hready (Params.dmaFault_denied hA hfit hdenied)

/-! #### The fault mark along a step (R207, log 4) -/

theorem step_of_faulted {s : State} {f : Fault} (h : s.fault = some f) : step s = .fault f := by
  rw [step, h]

/-- The ENGINE's turn keeps the fault mark: a command that faults answers no state (R207). -/
theorem engineTurn_fault {s t : State} (h : engineTurn s = .next t) : t.fault = s.fault := by
  rcases engineTurn_eq_next.1 h with ⟨-, rfl⟩ | ⟨-, p, -, -, rfl⟩ | ⟨-, p, i, -, -, hexec⟩
  · rfl
  · rfl
  · exact (exec_ended hexec).fault

/-- No move sets the fault mark, and a reset does not clear it (R230). -/
theorem Move.fault_eq {s t : State} (h : Move s t) : t.fault = s.fault := by
  cases h with
  | engine _ hturn => exact (engineTurn_fault hturn :)
  | _ => rfl

/-- Settles O53: a step asks for the mark first, and no move changes it. -/
theorem faultedStateHasNoStep : Obligations.FaultedStateHasNoStep := by
  unfold Obligations.FaultedStateHasNoStep
  refine ⟨fun s f => step_of_faulted, fun s t h => ?_⟩
  obtain ⟨hunmarked, -⟩ := step_eq_next.1 h
  exact ⟨hunmarked, (step_move h).fault_eq.trans hunmarked⟩

end Sys2Proof.Machine

/-! ### Proofs: reset and hazards (spec/70_reset_and_hazards.md) -/

namespace Sys2Proof.Machine

/-! #### Who moves (R7, R63, R247, log 3) -/

theorem step_of_noEvents {s : State} (hfault : s.fault = none) (hev : s.events = []) : step s = engineTurn s := by
  simp only [step, hfault, hev]

theorem step_of_event {s : State} {e : Event} {es : List Event} (hfault : s.fault = none) (hev : s.events = e :: es) :
    step s = performEvent e { s with events := es } := by
  simp only [step, hfault, hev]

/-- The ENGINE's turn, as an event or because no event is left, in one form. -/
theorem step_of_engine {s : State} (hfault : s.fault = none) (hev : s.events = [] ∨ ∃ es, s.events = .engine :: es) :
    step s = engineTurn { s with events := s.events.tail } := by
  rcases hev with hnil | ⟨es, hcons⟩
  · have hsame : { s with events := s.events.tail } = s := by rw [hnil, List.tail_nil, ← hnil]
    rw [hsame, step_of_noEvents hfault hnil]
  · rw [hcons, step_of_event hfault hcons]
    rfl

/-! #### The ENGINE's turn on a word that decodes (R78, R240) -/

theorem engineTurn_of_instr? {s : State} {p : Pend} {i : Instr} (hbusy : s.status.busy = true) (hp : s.pend = some p)
    (hi : Pend.instr? p = some i) : engineTurn s = exec i s := by
  simp only [engineTurn, hbusy, hp, hi, if_true]

/-- A word that decodes is legal, so what a write of it latches stands for the command it decodes to. -/
theorem Pend.instr?_of_decode {c : Word} {i : Instr} (h : decode c = .ok i) (a : OperandRegs) :
    Pend.instr? ⟨cmdOp c, cmdSz c, legalWord c, a⟩ = some i := by
  obtain ⟨-, hfields⟩ := decode_eq_ok.1 h
  simp only [Pend.instr?, legalWord_iff_decodes.2 ⟨i, h⟩, hfields, if_true]

theorem engineTurn_eq_of_idle {s : State} (hidle : s.status.busy = false) : engineTurn s = .next s :=
  engineTurn_eq_next.2 (.inl ⟨.inl hidle, rfl⟩)

/-- A table word that decodes is, as the hardware stores it, a command word that decodes (R52, R83). -/
theorem decode_of_decodeTableWord {nbits w : Nat} {i : Instr} (h : decodeTableWord nbits w = some i) :
    decode (wordOfBytes (bytesLE 8 (w % 2 ^ nbits))) = .ok i := by
  simp only [decodeTableWord, decodeBytes, bytesLE_length, if_true] at h
  split at h
  · next j hj => rw [hj, Option.some.inj h]
  · cases h

/-- Settles O5: a step is the move of the agent that the events name, and the ENGINE's move goes by what the latched word
stands for. -/
theorem stepPerformsTheDecodedCommand : Obligations.StepPerformsTheDecodedCommand := by
  unfold Obligations.StepPerformsTheDecodedCommand
  refine ⟨?_, ?_, ?_, ?_, ?_, ?_⟩
  · intro s c i a hfault hbusy hp hdecode
    have hi := Pend.instr?_of_decode hdecode a
    exact ⟨fun hev => (step_of_noEvents hfault hev).trans (engineTurn_of_instr? hbusy hp hi),
      fun es hev => (step_of_event hfault hev).trans (engineTurn_of_instr? hbusy hp hi)⟩
  · intro s nbits w i htable
    have hi := Pend.instr?_of_decode (decode_of_decodeTableWord htable) s.args
    exact (step_of_noEvents rfl rfl).trans (engineTurn_of_instr? rfl rfl hi)
  · exact fun s a n es => step_of_event
  · exact fun s a bs es => step_of_event
  · intro s p hfault hbusy hp hillegal
    exact ⟨fun hev => (step_of_noEvents hfault hev).trans (engineTurn_of_illegal hbusy hp hillegal),
      fun es hev => (step_of_event hfault hev).trans (engineTurn_of_illegal hbusy hp hillegal)⟩
  · intro s hfault hidle
    exact ⟨fun hev => (step_of_noEvents hfault hev).trans (engineTurn_eq_of_idle hidle),
      fun es hev => (step_of_event hfault hev).trans (engineTurn_eq_of_idle hidle)⟩

/-! #### Reset (R230, R231, R232) -/

/-- Settles O17: the values are R41's, written out in the reset state. -/
theorem resetLeavesTheInitialMode : Obligations.ResetLeavesTheInitialMode := by
  unfold Obligations.ResetLeavesTheInitialMode
  exact ⟨rfl, rfl, rfl, rfl, rfl, rfl, rfl, rfl⟩

/-- Abandoning a command touches no byte outside its footprint, for it draws at most as many bytes as the footprint has. -/
theorem State.abandon_get?_of_not_inRange {s : State} {x : Nat} (hx : ¬ Claims.inRange (State.footprint s) x) :
    Memory.get? (State.abandon s) x = Memory.get? s.mem x := by
  apply Memory.get?_writeBytes_of_outside
  simp only [List.length_map, List.length_range, State.abandonedLength]
  simp only [Claims.inRange] at hx
  omega

/-- Each byte of an abandoned footprint that exists holds the free value drawn for it (R231, log 7). -/
theorem State.abandon_get?_of_exists {s : State} {i : Nat} (hi : i < (State.footprint s).2)
    (hexists : (State.footprint s).1 + i < 2 ^ s.params.addrW) :
    Memory.get? (State.abandon s) ((State.footprint s).1 + i) = some (Config.freeByte (s.draws + i)) := by
  have hdrawn : i < State.abandonedLength s := by
    unfold State.abandonedLength
    omega
  rw [State.abandon, Memory.get?_writeBytes_of_lt (by simpa using hdrawn), List.getElem_map, List.getElem_range]

/-- Settles O18: the registers are those of the reset state, and memory is what abandoning the command leaves. -/
theorem resetAbandonsThePendingCommand : Obligations.ResetAbandonsThePendingCommand := by
  unfold Obligations.ResetAbandonsThePendingCommand
  intro s es hfault hev
  refine ⟨State.resetPulse { s with events := es }, step_of_event hfault hev, rfl, rfl, rfl, rfl, rfl, rfl, rfl, rfl, rfl,
    rfl, rfl, rfl, hfault, rfl, rfl, rfl, ?_, ?_⟩
  · exact fun x => State.abandon_get?_of_not_inRange (s := { s with events := es })
  · exact fun i => State.abandon_get?_of_exists (s := { s with events := es })

/-! #### Host memory and the pending footprint (R50, R55, R243) -/

/-- Two ranges meet when a byte lies in both; the higher of the two starts is such a byte. -/
theorem rangesMeet_eq_true {a n b m : Nat} :
    rangesMeet a n b m = true ↔ ∃ x, Claims.inRange (a, n) x ∧ Claims.inRange (b, m) x := by
  simp only [rangesMeet, Bool.and_eq_true, decide_eq_true_eq, Claims.inRange]
  constructor
  · intro hmeet
    exact ⟨max a b, by omega⟩
  · rintro ⟨x, hxa, hxb⟩
    omega

theorem Params.target_memory {p : Params} {a n : Nat} (h : a + n ≤ p.base ∨ p.base + 0x1000 + 16 * p.nmax ≤ a) :
    Params.target p a n = .memory := by
  rw [Params.target, if_pos (by simpa using h)]

theorem State.memFault_of_race {s : State} {a n : Nat} (hfit : a + n ≤ 2 ^ s.params.addrW)
    (hbusy : s.status.busy = true)
    (hmeet : ∃ x, Claims.inRange (a, n) x ∧ Claims.inRange (State.footprint s) x) :
    State.memFault s a n = some .dmaRace := by
  have hmeets : rangesMeet a n (State.footprint s).1 (State.footprint s).2 = true := rangesMeet_eq_true.2 hmeet
  rw [State.memFault, if_neg (by omega), hbusy, hmeets]
  rfl

theorem State.memFault_of_clear {s : State} {a n : Nat} (hfit : a + n ≤ 2 ^ s.params.addrW)
    (hclear : s.status.busy = false ∨ ∀ x, Claims.inRange (a, n) x → ¬ Claims.inRange (State.footprint s) x) :
    State.memFault s a n = none := by
  rw [State.memFault, if_neg (by omega), if_neg]
  rw [Bool.and_eq_true, rangesMeet_eq_true]
  rintro ⟨hbusy, x, hxa, hxf⟩
  rcases hclear with hidle | hclear
  · exact absurd (hidle.symm.trans hbusy) (by decide)
  · exact hclear x hxa hxf

/-- A byte that has been written reads as written (R55, log 6). -/
theorem Memory.readBytes_getElem? {m : Memory} {a n i : Nat} {b : Byte} (hi : i < n)
    (hb : Memory.get? m (a + i) = some b) : (Memory.readBytes m a n)[i]? = some b := by
  simp only [Memory.readBytes, List.getElem?_map, List.getElem?_range hi, Option.map_some, Memory.byteAt, hb,
    Option.getD_some]

@[simp] theorem Memory.readBytes_length (m : Memory) (a n : Nat) : (Memory.readBytes m a n).length = n := by
  simp [Memory.readBytes]

/-- Settles O13: an access outside the block goes to host memory, where the race is the one fault left below
`2^ADDR_W`. -/
theorem hostMemoryAccessAndItsRace : Obligations.HostMemoryAccessAndItsRace := by
  unfold Obligations.HostMemoryAccessAndItsRace
  intro s a bs houtside hfit
  have htarget := Params.target_memory houtside
  constructor
  · intro hbusy hmeet
    have hrace := State.memFault_of_race hfit hbusy hmeet
    exact ⟨by simp only [State.hostRead, htarget, hrace], by simp only [State.hostWrite, htarget, hrace]⟩
  · intro hclear
    have hnone := State.memFault_of_clear hfit hclear
    refine ⟨⟨Memory.readBytes s.mem a bs.length, Memory.readBytes_length _ _ _, fun i b => Memory.readBytes_getElem?, ?_⟩,
      ⟨{ s with mem := Memory.writeBytes s.mem a bs }, ?_, rfl, Memory.get?_writeBytes s.mem a bs⟩⟩
    · simp only [State.hostRead, htarget, hnone, State.deliver]
    · simp only [State.hostWrite, htarget, hnone]

/-! #### No move is refused -/

/-- The outcome is a next state or a fault: what was asked for has a meaning in the model. -/
def Answers (r : Host.Outcome State Fault Refusal) : Prop := (∃ t, r = .next t) ∨ ∃ f, r = .fault f

theorem answers_next (t : State) : Answers (.next t) := .inl ⟨t, rfl⟩

theorem answers_fault (f : Fault) : Answers (.fault f) := .inr ⟨f, rfl⟩

theorem seededGate_answers {s : State} {r : Host.Outcome State Fault Refusal} (hr : Answers r) :
    Answers (seededGate s r) := by
  unfold seededGate
  split
  · exact answers_next _
  · exact hr

theorem getToMemory_answers (s : State) (f : Byte → Byte) : Answers (getToMemory s f) := by
  apply seededGate_answers
  split
  · exact answers_fault _
  · exact answers_next _

/-- Every command has a meaning: it ends, or its footprint faults. -/
theorem exec_answers (i : Instr) (s : State) : Answers (exec i s) := by
  cases i with
  | engKey => exact answers_next _
  | engEnc => exact answers_next _
  | engCtr =>
    simp only [exec, execEngCtr]
    split
    · exact answers_fault _
    · exact answers_next _
  | genSeed =>
    simp only [exec, execGenSeed]
    split <;> exact answers_next _
  | genGetbytes => exact getToMemory_answers s _
  | genGetval sz =>
    simp only [exec, execGenGetval]
    split
    · exact answers_next _
    · exact seededGate_answers (answers_next _)
  | genGetbools => exact getToMemory_answers s _
  | genGetbit => exact seededGate_answers (answers_next _)
  | genView => exact seededGate_answers (answers_next _)
  | genGetseed => exact seededGate_answers (answers_next _)
  | genRelease => exact answers_next _

theorem engineTurn_answers (s : State) : Answers (engineTurn s) := by
  unfold engineTurn
  split
  · split
    · exact answers_next _
    · split
      · exact exec_answers _ s
      · exact answers_next _
  · exact answers_next _

theorem readReg_answers (s : State) (r : Reg) : Answers (State.readReg s r) := by
  unfold State.readReg
  split
  · exact answers_fault _
  · split
    · exact answers_next _
    · split <;> exact answers_next _

theorem readWindow_answers (s : State) (j w : Nat) : Answers (State.readWindow s j w) := by
  unfold State.readWindow
  iterate 4
    split
    · exact answers_fault _
  exact answers_next _

theorem hostRead_answers (s : State) (a n : Nat) : Answers (State.hostRead s a n) := by
  unfold State.hostRead
  split
  · exact answers_fault _
  · split
    · exact answers_fault _
    · split
      · exact readReg_answers s _
      · exact answers_fault _
  · exact readWindow_answers s _ n
  · split
    · exact answers_fault _
    · exact answers_next _

theorem writeReg_answers (s : State) (r : Reg) (v : Word) : Answers (State.writeReg s r v) := by
  unfold State.writeReg
  split
  · split
    · exact answers_fault _
    · exact answers_next _
  · split
    · exact answers_fault _
    · exact answers_next _
  · exact answers_fault _

theorem hostWrite_answers (s : State) (a : Nat) (bs : List Byte) : Answers (State.hostWrite s a bs) := by
  unfold State.hostWrite
  split
  · exact answers_fault _
  · split
    · exact answers_fault _
    · split
      · exact writeReg_answers s _ _
      · exact answers_fault _
  · exact answers_fault _
  · split
    · exact answers_fault _
    · exact answers_next _

/-! #### What becomes of a pending command (R231, R240, R247) -/

/-- The step from `u` is the last of the pending command: the ENGINE's turn performs it (R240), the reset pulse abandons
it (R231), or a host access faults and the machine stops. -/
def CommandResolves (u : State) : Prop :=
  ((u.events = [] ∨ ∃ es, u.events = .engine :: es) ∧
      step u = engineTurn { u with events := u.events.tail } ∧
      ((∃ v : State, step u = .next v ∧ v.status.busy = false ∧ v.pend = none) ∨ ∃ f : Fault, step u = .fault f)) ∨
    ((∃ es, u.events = .reset :: es) ∧ ∃ v : State, step u = .next v ∧ v.status.busy = false ∧ v.pend = none) ∨
    ((∃ a n es, u.events = .read a n :: es) ∧ ∃ f : Fault, step u = .fault f) ∨
    ((∃ a bs es, u.events = .write a bs :: es) ∧ ∃ f : Fault, step u = .fault f)

/-- The command is still pending in `t`, one event of `s` later. -/
structure StillPending (s t : State) : Prop where
  fault : t.fault = none
  busy : t.status.busy = true
  pend : t.pend = s.pend
  events : t.events = s.events.tail

/-- With a command pending the ENGINE's turn that answers a next state ends it (R201, R240). -/
theorem engineTurn_ends {s t : State} (hbusy : s.status.busy = true) (hp : s.pend ≠ none)
    (h : engineTurn s = .next t) : t.status.busy = false ∧ t.pend = none := by
  rcases engineTurn_eq_next.1 h with ⟨hidle | hnone, -⟩ | ⟨-, p, -, -, rfl⟩ | ⟨-, p, i, -, -, hexec⟩
  · exact absurd (hidle.symm.trans hbusy) (by decide)
  · exact absurd hnone hp
  · exact ⟨rfl, rfl⟩
  · exact ⟨(exec_ended hexec).busy, (exec_ended hexec).pend⟩

/-- The ENGINE's turn performs the pending command. -/
theorem commandResolves_of_engine {s : State} (hfault : s.fault = none) (hbusy : s.status.busy = true)
    (hp : s.pend ≠ none) (hev : s.events = [] ∨ ∃ es, s.events = .engine :: es) : CommandResolves s := by
  have hstep := step_of_engine hfault hev
  refine .inl ⟨hev, hstep, ?_⟩
  rw [hstep]
  refine (engineTurn_answers _).imp_left ?_
  rintro ⟨v, hv⟩
  exact ⟨v, hv, engineTurn_ends (s := { s with events := s.events.tail }) hbusy hp hv⟩

/-- A host read that does not fault leaves the command pending (R60). -/
theorem read_resolves_or_pending {s : State} {a n : Nat} {es : List Event} (hfault : s.fault = none)
    (hbusy : s.status.busy = true) (hev : s.events = .read a n :: es) :
    CommandResolves s ∨ ∃ t, step s = .next t ∧ StillPending s t := by
  have hstep : step s = State.hostRead { s with events := es } a n := step_of_event hfault hev
  rcases hostRead_answers { s with events := es } a n with ⟨t, ht⟩ | ⟨f, hf⟩
  · obtain ⟨bs, d, rfl⟩ := hostRead_next ht
    exact .inr ⟨_, hstep.trans ht, hfault, hbusy, rfl, by rw [hev]; rfl⟩
  · exact .inl (.inr (.inr (.inl ⟨⟨a, n, es, hev⟩, f, hstep.trans hf⟩)))

/-- With BUSY = 1 a host write that does not fault goes to host memory and leaves the command pending (R74, R78, R241). -/
theorem write_resolves_or_pending {s : State} {a : Nat} {bs : List Byte} {es : List Event} (hfault : s.fault = none)
    (hbusy : s.status.busy = true) (hev : s.events = .write a bs :: es) :
    CommandResolves s ∨ ∃ t, step s = .next t ∧ StillPending s t := by
  have hstep : step s = State.hostWrite { s with events := es } a bs := step_of_event hfault hev
  rcases hostWrite_answers { s with events := es } a bs with ⟨t, ht⟩ | ⟨f, hf⟩
  · rcases hostWrite_next ht with ⟨hidle, -⟩ | ⟨hidle, -⟩ | ⟨-, rfl⟩
    · exact absurd (hidle.symm.trans hbusy) (by decide)
    · exact absurd (hidle.symm.trans hbusy) (by decide)
    · exact .inr ⟨_, hstep.trans ht, hfault, hbusy, rfl, by rw [hev]; rfl⟩
  · exact .inl (.inr (.inr (.inr ⟨⟨a, bs, es, hev⟩, f, hstep.trans hf⟩)))

/-- One step with a command pending: it resolves the command, or it is a host access that leaves it pending. -/
theorem step_resolves_or_pending {s : State} (hfault : s.fault = none) (hbusy : s.status.busy = true)
    (hp : s.pend ≠ none) :
    CommandResolves s ∨ ∃ t, step s = .next t ∧ StillPending s t := by
  cases hev : s.events with
  | nil => exact .inl (commandResolves_of_engine hfault hbusy hp (.inl hev))
  | cons e es =>
    cases e with
    | engine => exact .inl (commandResolves_of_engine hfault hbusy hp (.inr ⟨es, hev⟩))
    | read a n => exact read_resolves_or_pending hfault hbusy hev
    | write a bs => exact write_resolves_or_pending hfault hbusy hev
    | reset => exact .inl (.inr (.inl ⟨⟨es, hev⟩, _, step_of_event hfault hev, rfl, rfl⟩))

/-- A pending command is resolved before the events run out: each step that does not resolve it takes one away. -/
theorem run_reaches_resolution {es : List Event} {s : State} (hev : s.events = es) (hfault : s.fault = none)
    (hbusy : s.status.busy = true) (hp : s.pend ≠ none) :
    ∃ (k : Nat) (u : State), k ≤ es.length ∧ Host.Core.run Sys2Proof.core k s = .next u ∧
      u.events = es.drop k ∧ u.status.busy = true ∧ u.pend = s.pend ∧ CommandResolves u := by
  induction es generalizing s with
  | nil => exact ⟨0, s, le_rfl, rfl, hev, hbusy, rfl, commandResolves_of_engine hfault hbusy hp (.inl hev)⟩
  | cons e es ih =>
    rcases step_resolves_or_pending hfault hbusy hp with hresolves | ⟨t, hstep, hpending⟩
    · exact ⟨0, s, Nat.zero_le _, rfl, hev, hbusy, rfl, hresolves⟩
    · have hevents : t.events = es := by rw [hpending.events, hev, List.tail_cons]
      obtain ⟨k, u, hk, hrun, hdrop, hu, hsame, hresolves⟩ :=
        ih hevents hpending.fault hpending.busy (hpending.pend ▸ hp)
      exact ⟨k + 1, u, Nat.succ_le_succ hk, (run_of_next hstep).trans hrun, hdrop, hu, hsame.trans hpending.pend,
        hresolves⟩

/-- Settles O58, by induction on the events to come. -/
theorem pendingCommandIsPerformed : Obligations.PendingCommandIsPerformed := by
  unfold Obligations.PendingCommandIsPerformed
  exact fun s => run_reaches_resolution rfl

end Sys2Proof.Machine
